-- ==== Sys2Proof/Word.lean ====
section
/-! DEFINITION. The two sizes of value the machine holds (00_scope.md R8, R9, R11). -/

namespace Sys2Proof

/-- An 8-bit value: a register of the 8-bit file, a memory byte, an output byte, an opcode (R8, R11). -/
abbrev Byte := BitVec 8

/-- A 32-bit value: a register of the 32-bit file or an address (R8, R11). -/
abbrev Word := BitVec 32

end Sys2Proof
end

