-- ==== Sys2Proof/Config.lean ====
section
/-! DEFINITION. The implementation parameters of 00_scope.md R8 that are no part of a type.
The spec leaves three of them OPEN and gives each a default (D7, D8, D14). The model takes every one of
them as an argument or as a field of State; the constants here are the spec's defaults. -/

namespace Sys2Proof.Config

/-- The largest MEM_SIZE: addresses are 32 bits wide (20_memory.md R36, D9). -/
def memSizeMax : Nat := 2 ^ 32

/-- The default of OUT_CAPACITY: unbounded (D7). DESIGN CHOICE of the spec, log 4. -/
def outCapacityDefault : Option Nat := none

/-- The default of EXPOSE_PARTIAL_OUTPUT (D8). DESIGN CHOICE of the spec, log 5. -/
def exposePartialOutputDefault : Bool := false

/-- The default of STEP_BUDGET: none (D14). DESIGN CHOICE of the spec, log 6. -/
def stepBudgetDefault : Option Nat := none

end Sys2Proof.Config
end

