-- ==== Sys2Proof/Machine/State.lean ====
section
/-! DEFINITION. The whole state of the machine as plain data (10_state.md, 20_memory.md R31), the reasons a
step can stop, and the state after reset. -/

namespace Sys2Proof.Machine

/-- The run status (R25). -/
inductive RunStatus where
  | running
  | halted
  | aborted
deriving DecidableEq, Repr

/-- The causes of an abort (R97). -/
inductive Cause where
  | unrecognizedOpcode
  | outOfBounds
  | outputOverflow
deriving DecidableEq, Repr

/-- The kinds of access an out-of-bounds abort names (R97, R98). -/
inductive Access where
  | fetchOpcode
  | fetchImmediate
  | dataRead
  | dataWrite
deriving DecidableEq, Repr

/-- The fault record of R97; the spec's NONE in a field is none. -/
structure FaultRecord where
  cause : Cause
  access : Option Access
  faultPc : Word
  opcode : Option Byte
  addr : Option Word
deriving DecidableEq, Repr

/-- The memory of R31: MEM_SIZE, and the bytes as (address, byte) pairs in one canonical form, which
Memory.wf in Machine/Ops.lean states: addresses strictly rising and below size, no listed byte 0. A byte below
size that is not listed is 0 (log 2); size is fixed by the image that was loaded. -/
structure Memory where
  cells : List Host.Cell
  size : Nat
deriving DecidableEq, Repr

/-- Every piece of state the spec gives the machine (10_state.md; INVENTORY.md lists them). -/
structure State where
  /-- accumulator (R13) -/
  a : Byte
  /-- operand (R13) -/
  b : Byte
  /-- count, the offset in the ptr_c address (R13) -/
  c : Byte
  /-- general purpose (R13) -/
  d : Byte
  /-- general purpose (R13) -/
  e : Byte
  /-- flags (R13, R17) -/
  f : Byte
  /-- general purpose (R18) -/
  la : Word
  /-- general purpose (R18) -/
  lb : Word
  /-- general purpose (R18) -/
  lc : Word
  /-- general purpose (R18) -/
  ld : Word
  /-- memory base pointer (R18) -/
  ptr : Word
  /-- program counter: the address of the next opcode byte (R18, R20) -/
  pc : Word
  /-- program and data (R31) -/
  mem : Memory
  /-- output buffer, the oldest byte first (R24) -/
  out : List Byte
  /-- OUT_CAPACITY: the parameter of R29 and D7, none when unbounded; no step changes it (log 4) -/
  outCapacity : Option Nat
  /-- run status (R25) -/
  status : RunStatus
  /-- fault record, none until an abort (R26) -/
  fault : Option FaultRecord
deriving DecidableEq, Repr

/-- Why no step exists. The spec's own faults are aborts, which are next states (R101, log 1). -/
inductive Fault where
  /-- Raised by step when status is HALTED: no step exists (R72, I11). Safe: nothing is claimed of what
  does not happen. -/
  | halted
  /-- Raised by step when status is ABORTED: no step exists (R72, I11). Safe, as for halted. -/
  | aborted
deriving DecidableEq, Repr

/-- Why the model gives no meaning. -/
inductive Refusal where
  /-- Raised by exec for an instruction without a meaning. No arm raises it: all 13 have theirs. Safe. -/
  | notModelled (mnemonic : String)
  /-- Raised by load, never by a step, for an image longer than 2^32 bytes (R36, D9). Safe: the spec
  itself refuses such an image. -/
  | imageTooLong
deriving DecidableEq, Repr

/-- The memory of the empty image (R36). -/
def Memory.empty : Memory := { cells := [], size := 0 }

/-- The machine after reset (R30, R115) with the EMPTY image: every register 0, no memory byte, no output,
RUNNING. A program is loaded from outside (Machine/Load.lean, log 3). -/
def State.reset : State where
  a := 0
  b := 0
  c := 0
  d := 0
  e := 0
  f := 0
  la := 0
  lb := 0
  lc := 0
  ld := 0
  ptr := 0
  pc := 0
  mem := Memory.empty
  out := []
  outCapacity := Config.outCapacityDefault
  status := .running
  fault := none

end Sys2Proof.Machine
end

