-- ==== Sys2Proof/Machine/Ops.lean ====
section
/-! DEFINITION. The named operations over registers, memory, output and status, and the abort, the one way
this machine takes an exception (60_exceptions.md). -/

namespace Sys2Proof.Machine

/-! ## Registers: one update per register (R15, R19) -/

def State.setA (s : State) (v : Byte) : State := { s with a := v }
def State.setB (s : State) (v : Byte) : State := { s with b := v }
def State.setC (s : State) (v : Byte) : State := { s with c := v }
def State.setD (s : State) (v : Byte) : State := { s with d := v }
def State.setE (s : State) (v : Byte) : State := { s with e := v }
def State.setF (s : State) (v : Byte) : State := { s with f := v }
def State.setLa (s : State) (v : Word) : State := { s with la := v }
def State.setLb (s : State) (v : Word) : State := { s with lb := v }
def State.setLc (s : State) (v : Word) : State := { s with lc := v }
def State.setLd (s : State) (v : Word) : State := { s with ld := v }
def State.setPtr (s : State) (v : Word) : State := { s with ptr := v }
def State.setPc (s : State) (v : Word) : State := { s with pc := v }

/-- The memory of the state replaced. -/
def State.setMem (s : State) (m : Memory) : State := { s with mem := m }

/-- One byte appended to the output buffer (R24). -/
def State.pushOut (s : State) (v : Byte) : State := { s with out := s.out ++ [v] }

/-- The run status written (R25). -/
def State.setStatus (s : State) (st : RunStatus) : State := { s with status := st }

/-! ## The program counter (R74) -/

/-- pc_adv: the pc advanced by the instruction's size, modulo 2^32 (R74). -/
def State.pcAdv (s : State) (size : Nat) : Word := s.pc + BitVec.ofNat 32 size

/-- The state with pc advanced past an instruction of the given size. -/
def State.advance (s : State) (size : Nat) : State := s.setPc (s.pcAdv size)

/-! ## Memory (R31 to R34) -/

/-- The byte a list of cells holds at an address; an unlisted address holds 0 (log 2). -/
def cellsGet : List Host.Cell → Nat → Byte
  | [], _ => 0
  | (k, v) :: rest, addr => if k = addr then v else cellsGet rest addr

/-- The list without the cell of an address. -/
def cellsErase : List Host.Cell → Nat → List Host.Cell
  | [], _ => []
  | (k, v) :: rest, addr => if k = addr then cellsErase rest addr else (k, v) :: cellsErase rest addr

/-- A cell put in its place among cells of rising addresses. -/
def cellsInsert : List Host.Cell → Nat → Byte → List Host.Cell
  | [], addr, v => [(addr, v)]
  | (k, w) :: rest, addr, v =>
    if addr < k then (addr, v) :: (k, w) :: rest else (k, w) :: cellsInsert rest addr v

/-- The list with one byte written; a byte 0 is not listed. -/
def cellsSet (cells : List Host.Cell) (addr : Nat) (v : Byte) : List Host.Cell :=
  if v = 0 then cellsErase cells addr else cellsInsert (cellsErase cells addr) addr v

/-- Addresses strictly rising from lo on and below hi, and no listed byte 0. -/
def cellsWf : Nat → Nat → List Host.Cell → Bool
  | _, _, [] => true
  | lo, hi, (k, v) :: rest => decide (lo ≤ k) && decide (k < hi) && decide (v ≠ 0) && cellsWf (k + 1) hi rest

/-- The canonical form of a memory, and the bound on its size (R31, R36). -/
def Memory.wf (m : Memory) : Bool := cellsWf 0 m.size m.cells && decide (m.size ≤ Config.memSizeMax)

/-- M[addr] when addr < MEM_SIZE, and nothing otherwise (R31, R33). -/
def Memory.read (m : Memory) (addr : Nat) : Option Byte :=
  if addr < m.size then some (cellsGet m.cells addr) else none

/-- The memory with M[addr] replaced, when addr < MEM_SIZE (R34). -/
def Memory.write (m : Memory) (addr : Nat) (v : Byte) : Option Memory :=
  if addr < m.size then some { m with cells := cellsSet m.cells addr v } else none

/-- The cells of consecutive bytes from an address on. -/
def cellsFrom : Nat → List Byte → List Host.Cell
  | _, [] => []
  | addr, v :: rest => if v = 0 then cellsFrom (addr + 1) rest else (addr, v) :: cellsFrom (addr + 1) rest

/-- The memory of a program image: its bytes from address 0, and exactly its length (R31, R37). -/
def Memory.ofImage (image : List Byte) : Memory := { cells := cellsFrom 0 image, size := image.length }

/-- Bytes placed by the host from an address on, modulo 2^32, the memory made long enough to hold them. No
instruction does this: it stands for the load of an image that holds them (log 3). -/
def Memory.place : Memory → Word → List Byte → Memory
  | m, _, [] => m
  | m, addr, v :: rest =>
    Memory.place { cells := cellsSet m.cells addr.toNat v, size := max m.size (addr.toNat + 1) } (addr + 1#32) rest

/-! ## Raising and taking a fault (R97, R101) -/

/-- What a raise says: the cause and its info (R10). -/
structure Raise where
  cause : Cause
  access : Option Access
  addr : Option Word
deriving DecidableEq, Repr

/-- The raise of an access at an address at or beyond MEM_SIZE (R98). -/
def Raise.outOfBounds (access : Access) (addr : Word) : Raise :=
  { cause := .outOfBounds, access := some access, addr := some addr }

/-- The raise of an unrecognized opcode (R99). -/
def Raise.unrecognizedOpcode : Raise := { cause := .unrecognizedOpcode, access := none, addr := none }

/-- The raise of OUT on a full bounded buffer (R112). -/
def Raise.outputOverflow : Raise := { cause := .outputOverflow, access := none, addr := none }

/-- TAKING AN EXCEPTION: the abort of R101. The fault record is written with the pc of the faulting
instruction, status becomes ABORTED, and everything else, pc included, keeps its value (R76, D5). There is no
handler and no return from it (R104). -/
def State.takeAbort (s : State) (r : Raise) (opcode : Option Byte) : State :=
  { s with
    status := .aborted
    fault := some { cause := r.cause, access := r.access, faultPc := s.pc, opcode := opcode, addr := r.addr } }

/-- The end of a step that reads and writes with bounds checks: it commits all of the instruction's writes or
takes the abort from the state before the instruction (R67, R76, R78). -/
def commitOrAbort (s : State) (opcode : Byte) (r : Except Raise State) :
    Host.Outcome State Fault Refusal :=
  match r with
  | .ok s' => .next s'
  | .error e => .next (s.takeAbort e (some opcode))

/-! ## Memory accesses of the machine (R33, R34) -/

/-- MemRead(addr, 1) of R33. -/
def memRead (access : Access) (s : State) (addr : Word) : Except Raise Byte :=
  match s.mem.read addr.toNat with
  | some v => .ok v
  | none => .error (Raise.outOfBounds access addr)

/-- MemWrite(addr, 1, v) of R34. -/
def memWrite (s : State) (addr : Word) (v : Byte) : Except Raise State :=
  match s.mem.write addr.toNat v with
  | some m => .ok (s.setMem m)
  | none => .error (Raise.outOfBounds .dataWrite addr)

/-! ## Output (R29) -/

/-- full: OUT_CAPACITY is bounded and the buffer holds exactly that many bytes (R29, R82). -/
def State.outFull (s : State) : Bool :=
  match s.outCapacity with
  | none => false
  | some cap => s.out.length == cap

end Sys2Proof.Machine
end

