-- ==== Sys2Proof/Machine/Flags.lean ====
section
/-! DEFINITION. The one flag computation: f is the only flag, and CMP the only instruction that computes it
(10_state.md R17, 42_alu.md R83, R84). JEZ and JNZ only test it (R89, R90). -/

namespace Sys2Proof.Machine

/-- alu_f of R83: 0 when the operands are equal, else 1. -/
def aluF (a b : Byte) : Byte := if a = b then 0 else 1

/-- f == 0, the condition of JEZ (R89). -/
def flagZero (s : State) : Bool := s.f == 0

end Sys2Proof.Machine
end

