-- ==== Sys2Proof/Machine/Alu.lean ====
section
/-! DEFINITION. alu_8bit and its four instructions CMP, ADD, SUB, XOR (42_alu.md R83 to R87). -/

namespace Sys2Proof.Machine

/-- The operations of R83. -/
inductive AluOp where
  | add | sub | xor | cmp
deriving DecidableEq, Repr

/-- alu_r of R83. R83 gives it no value for CMP: the 0 there is the model's (DESIGN CHOICE, log 19), and nothing
reads it. -/
def aluR (op : AluOp) (a b : Byte) : Byte :=
  match op with
  | .add => a + b
  | .sub => a - b
  | .xor => a ^^^ b
  | .cmp => 0

/-- The ALU instructions with a result: a becomes alu_r, no flag (R85 to R87). -/
def aluToA (op : AluOp) (s : State) : State := (s.setA (aluR op s.a s.b)).advance 1

/-- CMP (R84). -/
def execCmp (s : State) : Host.Outcome State Fault Refusal := .next ((s.setF (aluF s.a s.b)).advance 1)

/-- ADD (R85). -/
def execAdd (s : State) : Host.Outcome State Fault Refusal := .next (aluToA .add s)

/-- SUB (R86). -/
def execSub (s : State) : Host.Outcome State Fault Refusal := .next (aluToA .sub s)

/-- XOR (R87). -/
def execXor (s : State) : Host.Outcome State Fault Refusal := .next (aluToA .xor s)

end Sys2Proof.Machine
end

