-- ==== Sys2Proof/Syntax.lean ====
section
/-! DEFINITION. The instructions, one constructor per row of spec/opcode_table.json (00_scope.md R2), and
the two register spaces their operands name (10_state.md R14, R18; 30_encoding.md R52). Registers are named,
not numbered, so that no index without a register can be written. -/

namespace Sys2Proof

/-- The 8-bit register space of R14: six stored registers and the memory view ptr_c. -/
inductive Reg8 where
  | a | b | c | d | e | f
  | ptrC
deriving DecidableEq, Repr

/-- The 32-bit register space of R18; pc is one of the six (90_conflicts.md C1). -/
inductive Reg32 where
  | la | lb | lc | ld | ptr | pc
deriving DecidableEq, Repr

/-- The instruction set of R2. -/
inductive Instr where
  | halt
  | out
  | cmp
  | add
  | sub
  | xor
  | aptr (imm8 : Byte)
  | jez (imm32 : Word)
  | jnz (imm32 : Word)
  | mv8 (dst src : Reg8)
  | mvi8 (dst : Reg8) (imm8 : Byte)
  | mv32 (dst src : Reg32)
  | mvi32 (dst : Reg32) (imm32 : Word)
deriving DecidableEq, Repr

end Sys2Proof
end

