-- ==== Sys2Proof/Machine/Operands.lean ====
section
/-! DEFINITION. Every operand form: the 8-bit space with ptr_c (10_state.md R14, 20_memory.md R38) and the
32-bit space with pc (10_state.md R18, 40_dispatch.md R74), as Read8, Write8, Read32 and Write32 of R68. -/

namespace Sys2Proof.Machine

/-- The ptr_c address A = (ptr + zext_32(c)) mod 2^32 (R38). -/
def ptrCAddr (s : State) : Word := s.ptr + s.c.setWidth 32

/-- Read8 of R68: a stored register, or the byte ptr_c views, with access DATA_READ. -/
def read8 (s : State) (r : Reg8) : Except Raise Byte :=
  match r with
  | .a => .ok s.a
  | .b => .ok s.b
  | .c => .ok s.c
  | .d => .ok s.d
  | .e => .ok s.e
  | .f => .ok s.f
  | .ptrC => memRead .dataRead s (ptrCAddr s)

/-- Write8 of R68: a stored register, or the byte ptr_c views, with access DATA_WRITE. -/
def write8 (s : State) (r : Reg8) (v : Byte) : Except Raise State :=
  match r with
  | .a => .ok (s.setA v)
  | .b => .ok (s.setB v)
  | .c => .ok (s.setC v)
  | .d => .ok (s.setD v)
  | .e => .ok (s.setE v)
  | .f => .ok (s.setF v)
  | .ptrC => memWrite s (ptrCAddr s) v

/-- Read32 of R68: a register, pc being read as the instruction of the given size sees it, already advanced
(R74). -/
def read32 (s : State) (size : Nat) (r : Reg32) : Word :=
  match r with
  | .la => s.la
  | .lb => s.lb
  | .lc => s.lc
  | .ld => s.ld
  | .ptr => s.ptr
  | .pc => s.pcAdv size

/-- Write32 of R68 with the next pc of R75: a register, the pc advancing by the instruction's size, or pc
itself, an implicit jump. -/
def write32 (s : State) (size : Nat) (r : Reg32) (v : Word) : State :=
  match r with
  | .la => (s.setLa v).advance size
  | .lb => (s.setLb v).advance size
  | .lc => (s.setLc v).advance size
  | .ld => (s.setLd v).advance size
  | .ptr => (s.setPtr v).advance size
  | .pc => s.setPc v

/-- A jump taken or not (R75): the target, or the pc advanced by the instruction's size. -/
def branchIf (s : State) (size : Nat) (taken : Bool) (target : Word) : State :=
  if taken then s.setPc target else s.advance size

/-- A value copied into an 8-bit destination and pc advanced: the tail of MV8 and MVI8 (R92, R93). -/
def store8 (s : State) (size : Nat) (r : Reg8) (v : Byte) : Except Raise State :=
  match write8 s r v with
  | .ok s' => .ok (s'.advance size)
  | .error e => .error e

end Sys2Proof.Machine
end

