-- ==== Sys2Proof/Machine/Branch.lean ====
section
/-! DEFINITION. JEZ and JNZ (44_branch.md). -/

namespace Sys2Proof.Machine

/-- JEZ (R89): taken when f = 0, to an absolute target. -/
def execJez (imm32 : Word) (s : State) : Host.Outcome State Fault Refusal :=
  .next (branchIf s 5 (flagZero s) imm32)

/-- JNZ (R90): taken when f is not 0, for every nonzero value. -/
def execJnz (imm32 : Word) (s : State) : Host.Outcome State Fault Refusal :=
  .next (branchIf s 5 (!flagZero s) imm32)

end Sys2Proof.Machine
end

