-- ==== Sys2Proof/WellFormed.lean ====
section
/-! DEFINITION. Instructions as written, before any check, and the check that refuses the ill-formed ones
(30_encoding.md R63). A term of Instr is well formed by construction: its register operands are names and its
immediates have their width. What can be ill formed is a line of the syntax of R63: a wrong number or kind of
operands, a fixed operand replaced, or an immediate out of range. The notation has no effect on the machine
(D11); see log 15. -/

namespace Sys2Proof

/-- The mnemonics the assembler accepts (R63), MV and MVI being aliases of MV8 and MVI8 (C4). -/
inductive Mnemonic where
  | HALT | OUT | CMP | ADD | SUB | XOR | APTR | JEZ | JNZ | MV8 | MVI8 | MV32 | MVI32
  | MV | MVI
deriving DecidableEq, Repr

/-- An operand token: a register of either space, or a number not yet checked. -/
inductive AsmOperand where
  | r8 (r : Reg8)
  | r32 (r : Reg32)
  | num (n : Nat)
deriving DecidableEq, Repr

/-- One line of the syntax of R63; a destination stands before its source, the arrow being implied. -/
structure AsmLine where
  mnemonic : Mnemonic
  operands : List AsmOperand
deriving DecidableEq, Repr

/-- The check of R63: the operands a mnemonic takes, the fixed operands of OUT, ADD, SUB and XOR, and the
ranges of imm8 and imm32. -/
def wellFormed (l : AsmLine) : Bool :=
  match l.mnemonic, l.operands with
  | .HALT, [] => true
  | .OUT, [.r8 .a] => true
  | .CMP, [] => true
  | .ADD, [.r8 .a, .r8 .b] => true
  | .SUB, [.r8 .a, .r8 .b] => true
  | .XOR, [.r8 .a, .r8 .b] => true
  | .APTR, [.num n] => n < 2 ^ 8
  | .JEZ, [.num n] => n < 2 ^ 32
  | .JNZ, [.num n] => n < 2 ^ 32
  | .MV8, [.r8 _, .r8 _] => true
  | .MV, [.r8 _, .r8 _] => true
  | .MVI8, [.r8 _, .num n] => n < 2 ^ 8
  | .MVI, [.r8 _, .num n] => n < 2 ^ 8
  | .MV32, [.r32 _, .r32 _] => true
  | .MVI32, [.r32 _, .num n] => n < 2 ^ 32
  | _, _ => false

end Sys2Proof
end

