-- ==== Sys2Proof/Decode.lean ====
section
/-! DEFINITION. The decoder of 30_encoding.md, total on any bytes and rejecting by name, and after it the
encoder written from the same formats. -/

namespace Sys2Proof

/-! ## Register indices (R14, R18, R52) -/

/-- The register of the 8-bit space an index names; index 0 names none (R14). -/
def reg8OfIndex (i : BitVec 3) : Option Reg8 :=
  match i.toNat with
  | 1 => some .a
  | 2 => some .b
  | 3 => some .c
  | 4 => some .d
  | 5 => some .e
  | 6 => some .f
  | 7 => some .ptrC
  | _ => none

/-- The register of the 32-bit space an index names; indices 0 and 7 name none (R18). -/
def reg32OfIndex (i : BitVec 3) : Option Reg32 :=
  match i.toNat with
  | 1 => some .la
  | 2 => some .lb
  | 3 => some .lc
  | 4 => some .ld
  | 5 => some .ptr
  | 6 => some .pc
  | _ => none

/-- The index of an 8-bit register (R14). -/
def reg8Index (r : Reg8) : BitVec 3 :=
  match r with
  | .a => 1 | .b => 2 | .c => 3 | .d => 4 | .e => 5 | .f => 6 | .ptrC => 7

/-- The index of a 32-bit register (R18). -/
def reg32Index (r : Reg32) : BitVec 3 :=
  match r with
  | .la => 1 | .lb => 2 | .lc => 3 | .ld => 4 | .ptr => 5 | .pc => 6

/-! ## The opcode byte (R49, R53 to R56) -/

/-- What the opcode byte alone tells: the instruction and its register operands, its immediates still to be
read. This is the answer of Decode in R56. -/
inductive Head where
  | halt | out | cmp | add | sub | xor | aptr | jez | jnz
  | mv8 (dst src : Reg8)
  | mvi8 (dst : Reg8)
  | mv32 (dst src : Reg32)
  | mvi32 (dst : Reg32)
deriving DecidableEq, Repr

/-- How many immediate bytes follow the opcode (R47, R48). -/
def Head.immBytes (h : Head) : Nat :=
  match h with
  | .halt | .out | .cmp | .add | .sub | .xor | .mv8 _ _ | .mv32 _ _ => 0
  | .aptr | .mvi8 _ => 1
  | .jez | .jnz | .mvi32 _ => 4

/-- The length of the instruction in bytes: 1, 2 or 5 (R47). -/
def Head.size (h : Head) : Nat := 1 + h.immBytes

/-- The field tt of an opcode byte, bits 7..6 (R49). -/
def fieldTt (op : Byte) : BitVec 2 := op.extractLsb' 6 2

/-- The field ddd of an opcode byte, bits 5..3 (R49). -/
def fieldD (op : Byte) : BitVec 3 := op.extractLsb' 3 3

/-- The field sss of an opcode byte, bits 2..0 (R49). -/
def fieldS (op : Byte) : BitVec 3 := op.extractLsb' 0 3

/-- Tier A: the nine opcodes matched exactly (R53). -/
def decodeTierA (op : Byte) : Option Head :=
  match op.toNat with
  | 0x01 => some .halt
  | 0x02 => some .out
  | 0xC1 => some .cmp
  | 0xC2 => some .add
  | 0xC3 => some .sub
  | 0xC4 => some .xor
  | 0xE1 => some .aptr
  | 0x21 => some .jez
  | 0x22 => some .jnz
  | _ => none

/-- Tier B: the bit-packed moves (R54). A source field of 0 selects the immediate form (90_conflicts.md C8). -/
def decodeTierB (op : Byte) : Option Head :=
  if fieldTt op = 0b01#2 then
    match reg8OfIndex (fieldD op) with
    | none => none
    | some dst =>
      if fieldS op = 0#3 then some (.mvi8 dst)
      else (reg8OfIndex (fieldS op)).map fun src => .mv8 dst src
  else if fieldTt op = 0b10#2 then
    match reg32OfIndex (fieldD op) with
    | none => none
    | some dst =>
      if fieldS op = 0#3 then some (.mvi32 dst)
      else (reg32OfIndex (fieldS op)).map fun src => .mv32 dst src
  else none

/-- Decode of R56, total on the 256 opcode bytes: Tier A first (R55), then Tier B; none is NONE. -/
def decodeOpcode (op : Byte) : Option Head :=
  match decodeTierA op with
  | some h => some h
  | none => decodeTierB op

/-! ## Immediates (R50, R51) -/

/-- LE32 of R10: four bytes, the first the least significant. -/
def le32 (b0 b1 b2 b3 : Byte) : Word := b3 ++ b2 ++ b1 ++ b0

/-- imm8, the first immediate byte (R50). -/
def imm8Of (ib : List Byte) : Byte := ib.getD 0 0

/-- imm32, the four immediate bytes assembled little-endian (R51). -/
def imm32Of (ib : List Byte) : Word := le32 (ib.getD 0 0) (ib.getD 1 0) (ib.getD 2 0) (ib.getD 3 0)

/-- The instruction of an opcode and the immediate bytes that follow it (R59). -/
def Head.withImmediates (h : Head) (ib : List Byte) : Instr :=
  match h with
  | .halt => .halt
  | .out => .out
  | .cmp => .cmp
  | .add => .add
  | .sub => .sub
  | .xor => .xor
  | .aptr => .aptr (imm8Of ib)
  | .jez => .jez (imm32Of ib)
  | .jnz => .jnz (imm32Of ib)
  | .mv8 dst src => .mv8 dst src
  | .mvi8 dst => .mvi8 dst (imm8Of ib)
  | .mv32 dst src => .mv32 dst src
  | .mvi32 dst => .mvi32 dst (imm32Of ib)

/-! ## Decoding a sequence of bytes -/

/-- Why a sequence of bytes holds no instruction. -/
inductive DecodeError where
  /-- There is no byte at all. -/
  | noBytes
  /-- The opcode byte is one of the 149 of R61. -/
  | unrecognized (op : Byte)
  /-- The opcode is recognized but its immediate bytes are not all there. -/
  | truncated (op : Byte)
deriving DecidableEq, Repr

/-- What decoding answers: an instruction and the bytes after it, or a rejection by name. -/
inductive DecodeResult where
  | ok (i : Instr) (rest : List Byte)
  | reject (e : DecodeError)
deriving DecidableEq, Repr

/-- The decoder, total on any bytes (R47, R56, R59). -/
def decode (bs : List Byte) : DecodeResult :=
  match bs with
  | [] => .reject .noBytes
  | op :: tail =>
    match decodeOpcode op with
    | none => .reject (.unrecognized op)
    | some h =>
      if tail.length < h.immBytes then .reject (.truncated op)
      else .ok (h.withImmediates (tail.take h.immBytes)) (tail.drop h.immBytes)

/-- The longest instruction, in bytes (R47). -/
def maxInstrBytes : Nat := 5

/-- The first n bytes of a number, the least significant first. -/
def bytesOfNat : Nat → Nat → List Byte
  | 0, _ => []
  | n + 1, w => BitVec.ofNat 8 w :: bytesOfNat n (w / 256)

/-- The bytes of an instruction whose low nbits bits are w and whose other bits are 0, in memory order. -/
def tableWordBytes (nbits w : Nat) : List Byte := bytesOfNat maxInstrBytes (w % 2 ^ nbits)

/-- The instruction the decoder reads from a word numbered as spec/opcode_table.json numbers its bits. -/
def decodeTableWord (nbits w : Nat) : Option Instr :=
  match decode (tableWordBytes nbits w) with
  | .ok i _ => some i
  | .reject _ => none

/-! ## The encoder -/

/-- The opcode byte of a move: tt, ddd and sss of R49. -/
def moveOpcode (tt : BitVec 2) (d s : BitVec 3) : Byte := tt ++ d ++ s

/-- The opcode byte of an instruction (R48, R53, R54). -/
def opcodeOf (i : Instr) : Byte :=
  match i with
  | .halt => 0x01
  | .out => 0x02
  | .cmp => 0xC1
  | .add => 0xC2
  | .sub => 0xC3
  | .xor => 0xC4
  | .aptr _ => 0xE1
  | .jez _ => 0x21
  | .jnz _ => 0x22
  | .mv8 dst src => moveOpcode 0b01#2 (reg8Index dst) (reg8Index src)
  | .mvi8 dst _ => moveOpcode 0b01#2 (reg8Index dst) 0#3
  | .mv32 dst src => moveOpcode 0b10#2 (reg32Index dst) (reg32Index src)
  | .mvi32 dst _ => moveOpcode 0b10#2 (reg32Index dst) 0#3

/-- The four bytes of imm32, the least significant first (R48, R51). -/
def imm32Bytes (w : Word) : List Byte :=
  [w.extractLsb' 0 8, w.extractLsb' 8 8, w.extractLsb' 16 8, w.extractLsb' 24 8]

/-- The immediate bytes that follow the opcode (R48). -/
def immediatesOf (i : Instr) : List Byte :=
  match i with
  | .halt | .out | .cmp | .add | .sub | .xor | .mv8 _ _ | .mv32 _ _ => []
  | .aptr imm8 | .mvi8 _ imm8 => [imm8]
  | .jez imm32 | .jnz imm32 | .mvi32 _ imm32 => imm32Bytes imm32

/-- The encoder: the bytes of an instruction in memory order (R48). -/
def encode (i : Instr) : List Byte := opcodeOf i :: immediatesOf i

end Sys2Proof
end

