-- ==== Sys2Proof/Machine/Move.lean ====
section
/-! DEFINITION. The move family MV8, MVI8, MV32, MVI32 (45_move.md). -/

namespace Sys2Proof.Machine

/-- MV8 (R92): the read comes first, so MV8 ptr_c <- ptr_c out of bounds reports DATA_READ (R102). -/
def execMv8 (dst src : Reg8) (s : State) : Host.Outcome State Fault Refusal :=
  commitOrAbort s (opcodeOf (.mv8 dst src))
    (match read8 s src with
     | .ok v => store8 s 1 dst v
     | .error e => .error e)

/-- MVI8 (R93). -/
def execMvi8 (dst : Reg8) (imm8 : Byte) (s : State) : Host.Outcome State Fault Refusal :=
  commitOrAbort s (opcodeOf (.mvi8 dst imm8)) (store8 s 2 dst imm8)

/-- MV32 (R94). -/
def execMv32 (dst src : Reg32) (s : State) : Host.Outcome State Fault Refusal :=
  .next (write32 s 1 dst (read32 s 1 src))

/-- MVI32 (R95). -/
def execMvi32 (dst : Reg32) (imm32 : Word) (s : State) : Host.Outcome State Fault Refusal :=
  .next (write32 s 5 dst imm32)

end Sys2Proof.Machine
end

