-- ==== Sys2Proof/Machine/OutputHalt.lean ====
section
/-! DEFINITION. HALT and OUT (41_output_halt.md). -/

namespace Sys2Proof.Machine

/-- HALT (R81): the run ends, pc past the instruction. -/
def execHalt (s : State) : Host.Outcome State Fault Refusal := .next ((s.setStatus .halted).advance 1)

/-- OUT (R82): the byte of a is appended; on a full bounded buffer the abort OUTPUT_OVERFLOW (R112). -/
def execOut (s : State) : Host.Outcome State Fault Refusal :=
  commitOrAbort s (opcodeOf .out)
    (if s.outFull then .error Raise.outputOverflow else .ok ((s.pushOut s.a).advance 1))

end Sys2Proof.Machine
end

