-- ==== Sys2Proof/Machine/Pointer.lean ====
section
/-! DEFINITION. APTR (43_pointer.md). -/

namespace Sys2Proof.Machine

/-- APTR (R88): ptr plus imm8, zero-extended (D10, log 8), modulo 2^32. -/
def execAptr (imm8 : Byte) (s : State) : Host.Outcome State Fault Refusal :=
  .next ((s.setPtr (s.ptr + imm8.setWidth 32)).advance 2)

end Sys2Proof.Machine
end

