-- ==== Sys2Proof/Machine/Dispatch.lean ====
section
/-! DEFINITION. The meaning of every instruction, one arm per constructor (40_dispatch.md R68, R69). The state
is the one before the instruction, pc being the address of its opcode (R70, R74). -/

namespace Sys2Proof.Machine

/-- What an instruction does to the state before it (R68): all its writes, the pc's advance included, or the
abort. -/
def exec (i : Instr) (s : State) : Host.Outcome State Fault Refusal :=
  match i with
  | .halt => Sys2Proof.Machine.execHalt s
  | .out => Sys2Proof.Machine.execOut s
  | .cmp => Sys2Proof.Machine.execCmp s
  | .add => Sys2Proof.Machine.execAdd s
  | .sub => Sys2Proof.Machine.execSub s
  | .xor => Sys2Proof.Machine.execXor s
  | .aptr imm8 => Sys2Proof.Machine.execAptr imm8 s
  | .jez imm32 => Sys2Proof.Machine.execJez imm32 s
  | .jnz imm32 => Sys2Proof.Machine.execJnz imm32 s
  | .mv8 dst src => Sys2Proof.Machine.execMv8 dst src s
  | .mvi8 dst imm8 => Sys2Proof.Machine.execMvi8 dst imm8 s
  | .mv32 dst src => Sys2Proof.Machine.execMv32 dst src s
  | .mvi32 dst imm32 => Sys2Proof.Machine.execMvi32 dst imm32 s

end Sys2Proof.Machine
end

