-- ==== Sys2Proof/Machine/Fetch.lean ====
section
/-! DEFINITION. Fetch (30_encoding.md R59): the opcode, its decoding, then every immediate byte in rising
offset, all before any effect, whether or not the instruction will use them (D3, log 7). -/

namespace Sys2Proof.Machine

/-- Consecutive bytes from an address on, modulo 2^32; the first one out of bounds raises FETCH_IMMEDIATE
(R59, R98). -/
def fetchBytes (s : State) : Word → Nat → Except Raise (List Byte)
  | _, 0 => .ok []
  | addr, n + 1 =>
    match memRead .fetchImmediate s addr with
    | .error e => .error e
    | .ok v =>
      match fetchBytes s (addr + 1#32) n with
      | .error e => .error e
      | .ok rest => .ok (v :: rest)

/-- Fetch(pc) of R59: the instruction at pc, or the raise with the opcode byte if it was fetched (R97). -/
def fetch (s : State) : Except (Raise × Option Byte) Instr :=
  match memRead .fetchOpcode s s.pc with
  | .error e => .error (e, none)
  | .ok op =>
    match decodeOpcode op with
    | none => .error (Raise.unrecognizedOpcode, some op)
    | some h =>
      match fetchBytes s (s.pc + 1#32) h.immBytes with
      | .error e => .error (e, some op)
      | .ok ib => .ok (h.withImmediates ib)

end Sys2Proof.Machine
end

