-- ==== Sys2Proof/Machine/Load.lean ====
section
/-! DEFINITION. Program load, which is the reset of a run (70_reset_and_hazards.md R115), and the placing of
one instruction where the next step fetches. -/

namespace Sys2Proof.Machine

/-- Reset with a program image (R30, R115), OUT_CAPACITY being a parameter (D7). An image longer than 2^32
bytes is refused (R36, D9). -/
def load (image : List Byte) (outCapacity : Option Nat) : Host.Outcome State Fault Refusal :=
  if image.length ≤ Config.memSizeMax then
    .next { State.reset with mem := Memory.ofImage image, outCapacity := outCapacity }
  else .refused .imageTooLong

/-- The state with bytes placed at pc and ready to run them: RUNNING, no fault recorded (log 3). -/
def placeAtPc (s : State) (bytes : List Byte) : State :=
  { s with mem := s.mem.place s.pc bytes, status := .running, fault := none }

end Sys2Proof.Machine
end

