-- ==== Sys2Proof/Machine/Step.lean ====
section
/-! DEFINITION. One step of the machine (40_dispatch.md R67, R68). -/

namespace Sys2Proof.Machine

/-- One step (R68): it exists only while RUNNING (R67, R72); a fault of the fetch takes the abort (R76, R101);
otherwise the fetched instruction runs. -/
def step (s : State) : Host.Outcome State Fault Refusal :=
  match s.status with
  | .halted => .fault .halted
  | .aborted => .fault .aborted
  | .running =>
    match fetch s with
    | .error (e, opcode) => .next (s.takeAbort e opcode)
    | .ok i => exec i s

/-- The state whose next step fetches and runs the instruction whose low nbits bits are w, its other bits 0:
its bytes stand at pc, inside a memory made long enough (log 3). -/
def State.withFetchWord (s : State) (nbits w : Nat) : State := placeAtPc s (tableWordBytes nbits w)

end Sys2Proof.Machine
end

