-- ==== Sys2Proof/Machine/Listing.lean ====
section
/-! DEFINITION. The assembler's and the disassembler's view of an instruction (30_encoding.md R63, R64). It
has no effect on the machine (D11, log 15). -/

namespace Sys2Proof.Machine

/-- The instruction a line of R63 stands for; an ill-formed line is refused. -/
def assemble (l : AsmLine) : Option Instr :=
  if wellFormed l then
    match l.mnemonic, l.operands with
    | .HALT, [] => some .halt
    | .OUT, [_] => some .out
    | .CMP, [] => some .cmp
    | .ADD, [_, _] => some .add
    | .SUB, [_, _] => some .sub
    | .XOR, [_, _] => some .xor
    | .APTR, [.num n] => some (.aptr (BitVec.ofNat 8 n))
    | .JEZ, [.num n] => some (.jez (BitVec.ofNat 32 n))
    | .JNZ, [.num n] => some (.jnz (BitVec.ofNat 32 n))
    | .MV8, [.r8 dst, .r8 src] => some (.mv8 dst src)
    | .MV, [.r8 dst, .r8 src] => some (.mv8 dst src)
    | .MVI8, [.r8 dst, .num n] => some (.mvi8 dst (BitVec.ofNat 8 n))
    | .MVI, [.r8 dst, .num n] => some (.mvi8 dst (BitVec.ofNat 8 n))
    | .MV32, [.r32 dst, .r32 src] => some (.mv32 dst src)
    | .MVI32, [.r32 dst, .num n] => some (.mvi32 dst (BitVec.ofNat 32 n))
    | _, _ => none
  else none

/-- The line a disassembler prints for an instruction (R63, R64). -/
def listing (i : Instr) : AsmLine :=
  match i with
  | .halt => { mnemonic := .HALT, operands := [] }
  | .out => { mnemonic := .OUT, operands := [.r8 .a] }
  | .cmp => { mnemonic := .CMP, operands := [] }
  | .add => { mnemonic := .ADD, operands := [.r8 .a, .r8 .b] }
  | .sub => { mnemonic := .SUB, operands := [.r8 .a, .r8 .b] }
  | .xor => { mnemonic := .XOR, operands := [.r8 .a, .r8 .b] }
  | .aptr imm8 => { mnemonic := .APTR, operands := [.num imm8.toNat] }
  | .jez imm32 => { mnemonic := .JEZ, operands := [.num imm32.toNat] }
  | .jnz imm32 => { mnemonic := .JNZ, operands := [.num imm32.toNat] }
  | .mv8 dst src => { mnemonic := .MV8, operands := [.r8 dst, .r8 src] }
  | .mvi8 dst imm8 => { mnemonic := .MVI8, operands := [.r8 dst, .num imm8.toNat] }
  | .mv32 dst src => { mnemonic := .MV32, operands := [.r32 dst, .r32 src] }
  | .mvi32 dst imm32 => { mnemonic := .MVI32, operands := [.r32 dst, .num imm32.toNat] }

/-- A hexadecimal digit. -/
def hexDigit (n : Nat) : Char := if n < 10 then Char.ofNat (48 + n) else Char.ofNat (55 + n)

/-- The low digits of a number in hexadecimal, the most significant first. -/
def hexDigits : Nat → Nat → List Char
  | 0, _ => []
  | k + 1, n => hexDigits k (n / 16) ++ [hexDigit (n % 16)]

/-- A byte as 0xNN. -/
def hexByte (v : Byte) : List Char := '0' :: 'x' :: hexDigits 2 v.toNat

/-- A 32-bit value as 0xNNNNNNNN. -/
def hexWord (v : Word) : List Char := '0' :: 'x' :: hexDigits 8 v.toNat

/-- The name of an 8-bit register (R63). -/
def reg8Name (r : Reg8) : List Char :=
  match r with
  | .a => ['a'] | .b => ['b'] | .c => ['c'] | .d => ['d'] | .e => ['e'] | .f => ['f']
  | .ptrC => ['p', 't', 'r', '_', 'c']

/-- The name of a 32-bit register (R63). -/
def reg32Name (r : Reg32) : List Char :=
  match r with
  | .la => ['l', 'a'] | .lb => ['l', 'b'] | .lc => ['l', 'c'] | .ld => ['l', 'd']
  | .ptr => ['p', 't', 'r'] | .pc => ['p', 'c']

/-- The arrow between a destination and a source. -/
def arrow : List Char := [' ', '<', '-', ' ']

/-- The text of an instruction in the syntax of R63, immediates in hexadecimal (R64). -/
def instrText (i : Instr) : List Char :=
  match i with
  | .halt => ['H', 'A', 'L', 'T']
  | .out => ['O', 'U', 'T', ' ', 'a']
  | .cmp => ['C', 'M', 'P']
  | .add => ['A', 'D', 'D', ' ', 'a'] ++ arrow ++ ['b']
  | .sub => ['S', 'U', 'B', ' ', 'a'] ++ arrow ++ ['b']
  | .xor => ['X', 'O', 'R', ' ', 'a'] ++ arrow ++ ['b']
  | .aptr imm8 => ['A', 'P', 'T', 'R', ' '] ++ hexByte imm8
  | .jez imm32 => ['J', 'E', 'Z', ' '] ++ hexWord imm32
  | .jnz imm32 => ['J', 'N', 'Z', ' '] ++ hexWord imm32
  | .mv8 dst src => ['M', 'V', '8', ' '] ++ reg8Name dst ++ arrow ++ reg8Name src
  | .mvi8 dst imm8 => ['M', 'V', 'I', '8', ' '] ++ reg8Name dst ++ arrow ++ hexByte imm8
  | .mv32 dst src => ['M', 'V', '3', '2', ' '] ++ reg32Name dst ++ arrow ++ reg32Name src
  | .mvi32 dst imm32 => ['M', 'V', 'I', '3', '2', ' '] ++ reg32Name dst ++ arrow ++ hexWord imm32

/-! ## Reading a line of text (R63) -/

/-- The value of a hexadecimal digit, in either case of letters. -/
def hexDigitValue (ch : Char) : Option Nat :=
  let n := ch.toNat
  if 48 ≤ n && n ≤ 57 then some (n - 48)
  else if 65 ≤ n && n ≤ 70 then some (n - 55)
  else if 97 ≤ n && n ≤ 102 then some (n - 87)
  else none

/-- The digits of a number to a base, after a value already read; none on any other character. -/
def readDigits (base : Nat) : List Char → Nat → Option Nat
  | [], v => some v
  | ch :: rest, v =>
    match hexDigitValue ch with
    | some d => if d < base then readDigits base rest (v * base + d) else none
    | none => none

/-- A number in decimal, or in hexadecimal after 0x (R63). -/
def readNumber (word : List Char) : Option Nat :=
  match word with
  | [] => none
  | ['0', 'x'] => none
  | '0' :: 'x' :: digits => readDigits 16 digits 0
  | digits => readDigits 10 digits 0

/-- A register of either space by its name (R63), or a number. -/
def readOperand (word : List Char) : Option AsmOperand :=
  match [Reg8.a, .b, .c, .d, .e, .f, .ptrC].find? (fun r => reg8Name r == word) with
  | some r => some (.r8 r)
  | none =>
    match [Reg32.la, .lb, .lc, .ld, .ptr, .pc].find? (fun r => reg32Name r == word) with
    | some r => some (.r32 r)
    | none => (readNumber word).map .num

/-- A mnemonic by its name (R63, 90_conflicts.md C4). -/
def readMnemonic (word : List Char) : Option Mnemonic :=
  match word with
  | ['H', 'A', 'L', 'T'] => some .HALT
  | ['O', 'U', 'T'] => some .OUT
  | ['C', 'M', 'P'] => some .CMP
  | ['A', 'D', 'D'] => some .ADD
  | ['S', 'U', 'B'] => some .SUB
  | ['X', 'O', 'R'] => some .XOR
  | ['A', 'P', 'T', 'R'] => some .APTR
  | ['J', 'E', 'Z'] => some .JEZ
  | ['J', 'N', 'Z'] => some .JNZ
  | ['M', 'V', '8'] => some .MV8
  | ['M', 'V', 'I', '8'] => some .MVI8
  | ['M', 'V', '3', '2'] => some .MV32
  | ['M', 'V', 'I', '3', '2'] => some .MVI32
  | ['M', 'V'] => some .MV
  | ['M', 'V', 'I'] => some .MVI
  | _ => none

/-- The words of a line, any run of spaces between them: the word that stands first, then the others. -/
def splitWords : List Char → List Char × List (List Char)
  | [] => ([], [])
  | ch :: rest =>
    let (word, others) := splitWords rest
    if ch = ' ' then ([], if word = [] then others else word :: others) else (ch :: word, others)

/-- All words of a line. -/
def lineWords (text : List Char) : List (List Char) :=
  match splitWords text with
  | ([], others) => others
  | (word, others) => word :: others

/-- A line of the syntax of R63 read from its text: a mnemonic, then nothing, one operand, or a destination, the
arrow and a source. -/
def readLine (text : List Char) : Option AsmLine :=
  match lineWords text with
  | [m] => (readMnemonic m).map fun mn => { mnemonic := mn, operands := [] }
  | [m, x] => do return { mnemonic := ← readMnemonic m, operands := [← readOperand x] }
  | [m, x, ['<', '-'], y] => do
    return { mnemonic := ← readMnemonic m, operands := [← readOperand x, ← readOperand y] }
  | _ => none

/-- The instruction a line of text stands for, refused when it is not in the syntax or is ill formed (R63). -/
def assembleText (text : List Char) : Option Instr := (readLine text).bind assemble

/-! ## Listings (R64) -/

/-- One line of a listing and the bytes after it: an instruction in its syntax, or the first byte as data. A
recognized opcode whose immediate bytes are missing is printed as data too (DESIGN CHOICE, log 15). -/
def listingLine (bs : List Byte) : List Char × List Byte :=
  match decode bs, bs with
  | .ok i rest, _ => (instrText i, rest)
  | .reject _, op :: rest => (['.', 'b', 'y', 't', 'e', ' '] ++ hexByte op, rest)
  | .reject _, [] => ([], [])

/-- The listing of a sequence of bytes, at most n lines of it (R64). -/
def disassemble : Nat → List Byte → List (List Char)
  | 0, _ => []
  | _, [] => []
  | n + 1, b :: bs => (listingLine (b :: bs)).1 :: disassemble n (listingLine (b :: bs)).2

end Sys2Proof.Machine
end

