-- ==== Sys2Proof/Machine/Units.lean ====
section
/-! DEFINITION. The eight units of the block with their interfaces (00_scope.md R1, R7), each a combinational
function of its inputs: register files (10_state.md R27, R28), output buffer (R29), memory mux (20_memory.md
R44), fetch and decode (30_encoding.md R60), dispatcher (40_dispatch.md R69, R73), ALU (42_alu.md R83), next pc
(40_dispatch.md R75). The interfaces are the spec's own structuring aid and only their composition is normative
(D1, log 13): unitStep composes them, and must equal step. -/

namespace Sys2Proof.Machine

/-! ## register_file_8bit (R27) -/

/-- The source read port rs8 (R27). Indices 0 and 7 are never presented to it (rs8Request, source8Mux); that it would
answer 0 there is the model's (DESIGN CHOICE, log 21), for a total function. -/
def regFile8Read (s : State) (idx : BitVec 3) : Byte :=
  match idx.toNat with
  | 1 => s.a
  | 2 => s.b
  | 3 => s.c
  | 4 => s.d
  | 5 => s.e
  | 6 => s.f
  | _ => 0

/-- The write port: we8, wr8_idx, wr8_data (R27). Indices 0 and 7 never come with an enable of 1
(dispatcher_wr8Idx_in_range); that the port would write nothing for them is the model's (DESIGN CHOICE, log 25). -/
def regFile8Write (s : State) (we8 : Bool) (idx : BitVec 3) (data : Byte) : State :=
  if we8 then
    match idx.toNat with
    | 1 => s.setA data
    | 2 => s.setB data
    | 3 => s.setC data
    | 4 => s.setD data
    | 5 => s.setE data
    | 6 => s.setF data
    | _ => s
  else s

/-! ## register_file_32bit (R28) -/

/-- The source read port rs32, giving pc_adv for index 6 (R28). Indices 0 and 7 are never presented to it
(rs32Request); that it would answer 0 there is the model's (DESIGN CHOICE, log 21), for a total function. -/
def regFile32Read (s : State) (pcAdv : Word) (idx : BitVec 3) : Word :=
  match idx.toNat with
  | 1 => s.la
  | 2 => s.lb
  | 3 => s.lc
  | 4 => s.ld
  | 5 => s.ptr
  | 6 => pcAdv
  | _ => 0

/-- The general write port: we32, wr32_idx in 1..5, wr32_data (R28). Indices 0, 6 and 7 never come with an enable of
1 (dispatcher_wr32Idx_in_range); that the port would write nothing for them is the model's (DESIGN CHOICE, log 25). -/
def regFile32Write (s : State) (we32 : Bool) (idx : BitVec 3) (data : Word) : State :=
  if we32 then
    match idx.toNat with
    | 1 => s.setLa data
    | 2 => s.setLb data
    | 3 => s.setLc data
    | 4 => s.setLd data
    | 5 => s.setPtr data
    | _ => s
  else s

/-! ## memory_read_write_mux (R44) -/

/-- A read port's answer: the byte, and whether the address is at or beyond MEM_SIZE (the byte is then
ignored). -/
structure MemPort where
  data : Byte
  oob : Bool
deriving DecidableEq, Repr

/-- A read port of the memory: the fetch port, or the data port at d_addr. -/
def memPort (s : State) (addr : Word) : MemPort :=
  { data := cellsGet s.mem.cells addr.toNat, oob := decide (s.mem.size ≤ addr.toNat) }

/-- The 8-bit source mux (R44): index 7 is the data port, an index in 1..6 the register file. An instruction without
an 8-bit source presents no index, and the operand, which nothing reads, is then 0 (DESIGN CHOICE, log 21). -/
def source8Mux (s : State) (idx : Option (BitVec 3)) : MemPort :=
  match idx with
  | some i => if i = 7 then memPort s (ptrCAddr s) else { data := regFile8Read s i, oob := false }
  | none => { data := 0, oob := false }

/-- src32 of R69: the rs32 port's answer. An instruction without a 32-bit source presents no index, and the operand,
which nothing reads, is then 0 (DESIGN CHOICE, log 21). -/
def source32Port (s : State) (pcAdv : Word) (idx : Option (BitVec 3)) : Word :=
  match idx with
  | some i => regFile32Read s pcAdv i
  | none => 0

/-- The data write port at d_addr: d_we, d_wdata (R44). A write at an unbacked address is never committed, d_oob
having raised; that the port would list a cell there is the model's (DESIGN CHOICE, log 25). -/
def memDataWrite (s : State) (addr : Word) (we : Bool) (data : Byte) : State :=
  if we then s.setMem { s.mem with cells := cellsSet s.mem.cells addr.toNat data } else s

/-! ## instruction_fetch_decode_unit (R60) -/

/-- The output kind. -/
inductive Kind where
  | halt | out | cmp | add | sub | xor | aptr | jez | jnz | mv8 | mvi8 | mv32 | mvi32
deriving DecidableEq, Repr

/-- The output ifault (R60). The dispatcher ignores every other output of the unit when this one is not NONE, and
R97 asks for the opcode byte in the record of FETCH_IMMEDIATE, so that fault brings the byte with it, beside the
address R60 lists (DESIGN CHOICE, log 20). -/
inductive IFault where
  /-- NONE -/
  | none
  /-- UNRECOGNIZED_OPCODE(op) -/
  | unrecognizedOpcode (op : Byte)
  /-- OUT_OF_BOUNDS(FETCH_OPCODE, addr) -/
  | fetchOpcode (addr : Word)
  /-- OUT_OF_BOUNDS(FETCH_IMMEDIATE, addr), and the opcode byte that was fetched -/
  | fetchImmediate (addr : Word) (op : Byte)
deriving DecidableEq, Repr

/-- The kind of a decoded opcode. -/
def headKind (h : Head) : Kind :=
  match h with
  | .halt => .halt
  | .out => .out
  | .cmp => .cmp
  | .add => .add
  | .sub => .sub
  | .xor => .xor
  | .aptr => .aptr
  | .jez => .jez
  | .jnz => .jnz
  | .mv8 _ _ => .mv8
  | .mvi8 _ => .mvi8
  | .mv32 _ _ => .mv32
  | .mvi32 _ => .mvi32

/-- The outputs of the unit; all but ifault are ignored when ifault is not NONE (R60). dst and src are meaningful
for the moves only, imm8 and imm32 for their formats only: what fetchDecodeUnit drives there otherwise is the model's
(DESIGN CHOICE, log 22). -/
structure FetchDecodeOut where
  op : Byte
  kind : Kind
  size : Nat
  dst : BitVec 3
  src : BitVec 3
  imm8 : Byte
  imm32 : Word
  ifault : IFault
deriving DecidableEq, Repr

/-- The first address out of bounds among n consecutive ones. -/
def firstOob (s : State) : Word → Nat → Option Word
  | _, 0 => none
  | addr, n + 1 => if (memPort s addr).oob then some addr else firstOob s (addr + 1#32) n

/-- The byte at offset k of the instruction at pc, through the fetch port. -/
def fetchPortByte (s : State) (k : Nat) : Byte := (memPort s (s.pc + BitVec.ofNat 32 k)).data

/-- The unit: the opcode through the fetch port, its decoding, then the immediate bytes in rising offset. For every
kind dst and src are op[5:3] and op[2:0], and imm8 and imm32 are made of the bytes after the opcode, a byte out of
bounds counting as 0; beside a fault kind is HALT, size 1 and the rest 0. All this outside R60's formats is the
model's (DESIGN CHOICE, log 22), and nothing reads it. -/
def fetchDecodeUnit (s : State) : FetchDecodeOut :=
  let op := (memPort s s.pc).data
  let idle : FetchDecodeOut :=
    { op := op, kind := .halt, size := 1, dst := 0, src := 0, imm8 := 0, imm32 := 0, ifault := .none }
  if (memPort s s.pc).oob then { idle with ifault := .fetchOpcode s.pc }
  else
    match decodeOpcode op with
    | none => { idle with ifault := .unrecognizedOpcode op }
    | some h =>
      match firstOob s (s.pc + 1#32) h.immBytes with
      | some addr => { idle with ifault := .fetchImmediate addr op }
      | none =>
        { op := op, kind := headKind h, size := h.size, dst := fieldD op, src := fieldS op
          imm8 := fetchPortByte s 1
          imm32 := le32 (fetchPortByte s 1) (fetchPortByte s 2) (fetchPortByte s 3) (fetchPortByte s 4)
          ifault := .none }

/-! ## instruction_dispatcher (R69, R73) -/

/-- alu_op: what the dispatcher asks of alu_8bit for a kind (R69). -/
def aluOpOf (k : Kind) : Option AluOp :=
  match k with
  | .cmp => some .cmp
  | .add => some .add
  | .sub => some .sub
  | .xor => some .xor
  | _ => none

/-- alu_op as the dispatcher drives it: nothing is asked when ifault is not NONE, kind being ignored then (R60). -/
def aluRequest (u : FetchDecodeOut) : Option AluOp :=
  match u.ifault with
  | .none => aluOpOf u.kind
  | .unrecognizedOpcode _ | .fetchOpcode _ | .fetchImmediate _ _ => none

/-- The outputs of alu_8bit (R83). -/
structure AluOut where
  aluR : Byte
  aluF : Byte
deriving DecidableEq, Repr

/-- alu_8bit: its outputs for the requested operation (R83). R83 gives alu_f for CMP alone and alu_r for ADD, SUB
and XOR alone. The rest is the model's (DESIGN CHOICE, log 19): alu_f compares a with b for every operation, alu_r
is 0 for CMP, and both are 0 when no operation is requested. Nothing reads them then. -/
def aluUnit (op : Option AluOp) (a b : Byte) : AluOut :=
  match op with
  | some o => { aluR := aluR o a b, aluF := aluF a b }
  | none => { aluR := 0, aluF := 0 }

/-- rs8_idx: the source field, presented for MV8 alone, the one instruction with an 8-bit source (R27, R92). -/
def rs8Request (u : FetchDecodeOut) : Option (BitVec 3) :=
  match u.ifault, u.kind with
  | .none, .mv8 => some u.src
  | _, _ => none

/-- rs32_idx: the source field, presented for MV32 alone, the one instruction with a 32-bit source (R28, R94). -/
def rs32Request (u : FetchDecodeOut) : Option (BitVec 3) :=
  match u.ifault, u.kind with
  | .none, .mv32 => some u.src
  | _, _ => none

/-- The inputs of the dispatcher (R73), and the state it holds (status, fault). R73's list of inputs does not give
what its outputs push_data, wr32_data and fault are made of, so the model adds, as DESIGN CHOICE (log 23): a (a_q, for
push_data), ptr (ptr_q, for APTR's sum, whose adder stands in the dispatcher), source32 (rs32_data), pc (pc_q, for
fault_pc) and dAddr (d_addr, for the fault's address). source8 is d_rdata or rs8_data as the source mux of R44
selects, with the d_oob of a read through it. -/
structure DispatchIn where
  fdu : FetchDecodeOut
  pc : Word
  a : Byte
  f : Byte
  ptr : Word
  alu : AluOut
  source8 : MemPort
  source32 : Word
  dAddr : Word
  dOob : Bool
  full : Bool
  status : RunStatus
  fault : Option FaultRecord
deriving DecidableEq, Repr

/-- The outputs of the dispatcher (R73). -/
structure Control where
  we8 : Bool
  wr8Idx : BitVec 3
  wr8Data : Byte
  we32 : Bool
  wr32Idx : BitVec 3
  wr32Data : Word
  dWe : Bool
  dWdata : Byte
  pushEn : Bool
  pushData : Byte
  jumpEn : Bool
  jumpTarget : Word
  commit : Bool
  status : RunStatus
  fault : Option FaultRecord
deriving DecidableEq, Repr

/-- A step that commits nothing but the pc's advance: every enable the table of R69 does not list is 0. The index,
data and target beside an enable of 0 are 0 (DESIGN CHOICE, log 22); nothing reads them. -/
def controlIdle (d : DispatchIn) : Control :=
  { we8 := false, wr8Idx := 0, wr8Data := 0, we32 := false, wr32Idx := 0, wr32Data := 0, dWe := false
    dWdata := 0, pushEn := false, pushData := 0, jumpEn := false, jumpTarget := 0, commit := true
    status := d.status, fault := d.fault }

/-- A step that raises: commit is 0, so that no enable that k drives is applied, and the record of R97 is the next
fault (R76, R101). -/
def controlAbort (d : DispatchIn) (k : Control) (r : Raise) (opcode : Option Byte) : Control :=
  { k with
    commit := false
    status := .aborted
    fault := some { cause := r.cause, access := r.access, faultPc := d.pc, opcode := opcode, addr := r.addr } }

/-- The 8-bit destination mux (R44): index 7 drives d_we, any other index the register file's port. -/
def controlWrite8 (d : DispatchIn) (data : Byte) : Control :=
  if d.fdu.dst = 7 then { controlIdle d with dWe := true, dWdata := data }
  else { controlIdle d with we8 := true, wr8Idx := d.fdu.dst, wr8Data := data }

/-- The 32-bit destination: index 6 is a jump target, any other index the general port (R28, R75). -/
def controlWrite32 (d : DispatchIn) (data : Word) : Control :=
  if d.fdu.dst = 6 then { controlIdle d with jumpEn := true, jumpTarget := data }
  else { controlIdle d with we32 := true, wr32Idx := d.fdu.dst, wr32Data := data }

/-- The routing table of R69 for an instruction that was fetched. -/
def routeKind (d : DispatchIn) : Control :=
  match d.fdu.kind with
  | .halt => { controlIdle d with status := .halted }
  | .out => { controlIdle d with pushEn := true, pushData := d.a }
  | .cmp => { controlIdle d with we8 := true, wr8Idx := 6, wr8Data := d.alu.aluF }
  | .add => { controlIdle d with we8 := true, wr8Idx := 1, wr8Data := d.alu.aluR }
  | .sub => { controlIdle d with we8 := true, wr8Idx := 1, wr8Data := d.alu.aluR }
  | .xor => { controlIdle d with we8 := true, wr8Idx := 1, wr8Data := d.alu.aluR }
  | .aptr => { controlIdle d with we32 := true, wr32Idx := 5, wr32Data := d.ptr + d.fdu.imm8.setWidth 32 }
  | .jez => { controlIdle d with jumpEn := decide (d.f = 0), jumpTarget := d.fdu.imm32 }
  | .jnz => { controlIdle d with jumpEn := decide (d.f ≠ 0), jumpTarget := d.fdu.imm32 }
  | .mv8 => controlWrite8 d d.source8.data
  | .mvi8 => controlWrite8 d d.fdu.imm8
  | .mv32 => controlWrite32 d d.source32
  | .mvi32 => controlWrite32 d d.fdu.imm32

/-- d_oob at a write: DATA_WRITE when the 8-bit destination is index 7 (R44, R98). -/
def writeRaise (d : DispatchIn) : Option Raise :=
  if d.fdu.dst = 7 && d.dOob then some (Raise.outOfBounds .dataWrite d.dAddr) else none

/-- What a fetched instruction raises, the data read before the data write (R100, R102, R112). -/
def kindRaise (d : DispatchIn) : Option Raise :=
  match d.fdu.kind with
  | .out => if d.full then some Raise.outputOverflow else none
  | .mv8 => if d.source8.oob then some (Raise.outOfBounds .dataRead d.dAddr) else writeRaise d
  | .mvi8 => writeRaise d
  | .halt | .cmp | .add | .sub | .xor | .aptr | .jez | .jnz | .mv32 | .mvi32 => none

/-- A fetched instruction: its row of R69, with commit at 0 when it raises. The enables of the row stay as the table
and R44 have them (d_we is 1 for index 7 also when d_oob raises), and none is applied without commit (R78). -/
def dispatchKind (d : DispatchIn) : Control :=
  match kindRaise d with
  | some r => controlAbort d (routeKind d) r (some d.fdu.op)
  | none => routeKind d

/-- The dispatcher: a fault of the fetch comes before the table (R76, R102), and is all that is then read of the
fetch unit's outputs (R60). -/
def dispatcher (d : DispatchIn) : Control :=
  match d.fdu.ifault with
  | .none => dispatchKind d
  | .unrecognizedOpcode op => controlAbort d (controlIdle d) Raise.unrecognizedOpcode (some op)
  | .fetchOpcode addr => controlAbort d (controlIdle d) (Raise.outOfBounds .fetchOpcode addr) none
  | .fetchImmediate addr op => controlAbort d (controlIdle d) (Raise.outOfBounds .fetchImmediate addr) (some op)

/-! ## program_counter_nextstate (R74, R75) and commit (R78) -/

/-- pc_d: the jump target when jump_en, else the advanced pc. -/
def nextPcUnit (pcAdv : Word) (jumpEn : Bool) (jumpTarget : Word) : Word := if jumpEn then jumpTarget else pcAdv

/-- The output buffer's push port (R29). A push on a full buffer is never committed; that the port would append it is
the model's (DESIGN CHOICE, log 25). -/
def outBufferPush (s : State) (pushEn : Bool) (data : Byte) : State := if pushEn then s.pushOut data else s

/-- Commit (R78): every enabled write and the next pc together, or, when commit is 0, only the dispatcher's
own state (R76). -/
def commitControl (s : State) (pcD : Word) (k : Control) : State :=
  let written :=
    if k.commit then
      (outBufferPush
        (memDataWrite
          (regFile32Write (regFile8Write s k.we8 k.wr8Idx k.wr8Data) k.we32 k.wr32Idx k.wr32Data)
          (ptrCAddr s) k.dWe k.dWdata)
        k.pushEn k.pushData).setPc pcD
    else s
  { written with status := k.status, fault := k.fault }

/-- The inputs the units present to the dispatcher in a state. -/
def dispatchInOf (s : State) : DispatchIn :=
  let u := fetchDecodeUnit s
  { fdu := u, pc := s.pc, a := s.a, f := s.f, ptr := s.ptr
    alu := aluUnit (aluRequest u) s.a s.b
    source8 := source8Mux s (rs8Request u)
    source32 := source32Port s (s.pcAdv u.size) (rs32Request u)
    dAddr := ptrCAddr s
    dOob := (memPort s (ptrCAddr s)).oob
    full := s.outFull, status := s.status, fault := s.fault }

/-- One step as the composition of the units (R7, R67). -/
def unitStep (s : State) : Host.Outcome State Fault Refusal :=
  match s.status with
  | .halted => .fault .halted
  | .aborted => .fault .aborted
  | .running =>
    let d := dispatchInOf s
    let k := dispatcher d
    .next (commitControl s (nextPcUnit (s.pcAdv d.fdu.size) k.jumpEn k.jumpTarget) k)

end Sys2Proof.Machine
end

