-- ==== Sys2Proof/Machine/Run.lean ====
section
/-! DEFINITION. A run and what the host sees of it (40_dispatch.md R79, R80; 60_exceptions.md R113, R114;
70_reset_and_hazards.md R124). None of it changes what a step does. -/

namespace Sys2Proof.Machine

/-- At most a budget of steps, stopping when no step exists; the state is left as it is when the budget runs
out (R124, D14, log 6). -/
def runBudget : Nat → State → State
  | 0, s => s
  | n + 1, s =>
    match step s with
    | .next t => runBudget n t
    | .fault _ => s
    | .refused _ => s

/-- A run from s ends in t: t is reached by steps and is HALTED or ABORTED (R79). -/
def RunEndsIn (s t : State) : Prop := ∃ n, runBudget n s = t ∧ t.status ≠ .running

/-- A run from s never ends (R80, I6): it is RUNNING after every number of steps. -/
def RunsForEver (s : State) : Prop := ∀ n, (runBudget n s).status = .running

/-- The result of a run as the host sees it (R79, R113, R124). -/
inductive RunResult where
  /-- HALTED: the bytes put out, in emission order. -/
  | output (bytes : List Byte)
  /-- ABORTED: the fault record and, only when the host exposes it, the partial output, which is diagnostic
  and no result. -/
  | error (record : Option FaultRecord) (partialOutput : Option (List Byte))
  /-- RUNNING: the host stopped watching. -/
  | unfinished
deriving DecidableEq, Repr

/-- The host's view of a state, EXPOSE_PARTIAL_OUTPUT being a parameter (R79, R113, D8, log 5). -/
def hostResult (exposePartialOutput : Bool) (s : State) : RunResult :=
  match s.status with
  | .halted => .output s.out
  | .aborted => .error s.fault (if exposePartialOutput then some s.out else none)
  | .running => .unfinished

/-- The host's rendering: byte v is the character with code point v (D6, log 11). -/
def hostText (bytes : List Byte) : List Char := bytes.map fun v => Char.ofNat v.toNat

/-- The numeric code of a cause (R97, D4). -/
def Cause.code (c : Cause) : Nat :=
  match c with
  | .unrecognizedOpcode => 1
  | .outOfBounds => 2
  | .outputOverflow => 3

end Sys2Proof.Machine
end

