-- ==== Sys2Proof/Safety.lean ====
section
/-! DEFINITION. The terms in which claims speak of good states and safe runs. -/

namespace Sys2Proof.Machine

/-- A fault record is one that a fault of this very state can have written (60_exceptions.md R97 to R100,
R112): an abort keeps every register and the memory (R101), so the state still shows the reason. The opcode is the
byte at pc whenever it could be fetched (R97); FETCH_IMMEDIATE names the first missing byte (R98); DATA_WRITE comes
after the immediate fetch and the data read (R102). -/
def recordLegal (s : State) (r : FaultRecord) : Bool :=
  r.faultPc == s.pc && (r.access == some .fetchOpcode || r.opcode == s.mem.read s.pc.toNat) &&
  match r.cause with
  | .unrecognizedOpcode =>
    r.access == none && r.addr == none && r.opcode.any fun op => decodeOpcode op == none
  | .outputOverflow => r.access == none && r.addr == none && r.opcode == some 0x02 && s.outFull
  | .outOfBounds =>
    r.addr.any (fun a => s.mem.read a.toNat == none) &&
    match r.access with
    | none => false
    | some .fetchOpcode => r.opcode == none && r.addr == some s.pc
    | some .fetchImmediate =>
      r.opcode.any fun op => (decodeOpcode op).any fun h =>
        (List.range h.immBytes).any fun k =>
          r.addr == some (s.pc + 1#32 + BitVec.ofNat 32 k) &&
            (List.range k).all fun j => (s.mem.read (s.pc + 1#32 + BitVec.ofNat 32 j).toNat).isSome
    | some .dataRead =>
      r.addr == some (ptrCAddr s) &&
        r.opcode.any fun op => (decodeOpcode op).any fun h =>
          match h with
          | .mv8 _ .ptrC => true
          | _ => false
    | some .dataWrite =>
      r.addr == some (ptrCAddr s) &&
        r.opcode.any fun op => (decodeOpcode op).any fun h =>
          match h with
          | .mv8 .ptrC src => src != .ptrC
          | .mvi8 .ptrC => (s.mem.read (s.pc + 1#32).toNat).isSome
          | _ => false

/-- What holds of every state a run can reach. -/
structure State.Inv (s : State) : Prop where
  /-- the memory keeps its canonical form and its bound (R31, R36) -/
  memWf : s.mem.wf = true
  /-- the output buffer never holds more than its capacity (R29, R112) -/
  outBound : ∀ cap, s.outCapacity = some cap → s.out.length ≤ cap
  /-- a fault is recorded exactly when the run was aborted (R25, R26, R101) -/
  faultIff : s.status = .aborted ↔ s.fault ≠ none
  /-- and the record is one this state explains (R97 to R100) -/
  recordOk : ∀ r, s.fault = some r → recordLegal s r = true

/-- A run that has not aborted within n steps. -/
def SafeFor (n : Nat) (s : State) : Prop := (runBudget n s).status ≠ .aborted

/-- A run that never aborts. -/
def Safe (s : State) : Prop := ∀ n, SafeFor n s

end Sys2Proof.Machine
end

