-- ==== Sys2Proof/Certificates/Slice0/Obligations.lean ====
section
/-! DEFINITION. The statements for the provers. The first part reads the spec's own tables and formulas off
once more, in natural-number arithmetic and apart from the model's definitions, so that a statement does not
repeat what it checks. -/

namespace Sys2Proof.Spec

open Sys2Proof.Machine

/-! ## The register spaces and frames -/

/-- A stored 8-bit register (R13, R14); ptr_c has no storage. -/
def x8 (s : State) (r : Reg8) : Option Byte :=
  match r with
  | .a => some s.a
  | .b => some s.b
  | .c => some s.c
  | .d => some s.d
  | .e => some s.e
  | .f => some s.f
  | .ptrC => none

/-- A 32-bit register other than pc (R18). -/
def x32 (s : State) (r : Reg32) : Option Word :=
  match r with
  | .la => some s.la
  | .lb => some s.lb
  | .lc => some s.lc
  | .ld => some s.ld
  | .ptr => some s.ptr
  | .pc => none

/-- The index of an 8-bit register in the table of R14. -/
def num8 (r : Reg8) : Nat :=
  match r with
  | .a => 1 | .b => 2 | .c => 3 | .d => 4 | .e => 5 | .f => 6 | .ptrC => 7

/-- The index of a 32-bit register in the table of R18. -/
def num32 (r : Reg32) : Nat :=
  match r with
  | .la => 1 | .lb => 2 | .lc => 3 | .ld => 4 | .ptr => 5 | .pc => 6

/-- The pc advanced by n bytes, modulo 2^32 (R74). -/
def nextPc (s : State) (n : Nat) : Word := BitVec.ofNat 32 ((s.pc.toNat + n) % 2 ^ 32)

/-- Every stored 8-bit register is unchanged, but for one. -/
def same8But (s t : State) (dst : Reg8) : Prop := ∀ r, r ≠ dst → x8 t r = x8 s r

/-- Every stored 8-bit register is unchanged. -/
def same8 (s t : State) : Prop := ∀ r, x8 t r = x8 s r

/-- Every 32-bit register other than pc is unchanged, but for one. -/
def same32But (s t : State) (dst : Reg32) : Prop := ∀ r, r ≠ dst → x32 t r = x32 s r

/-- Every 32-bit register other than pc is unchanged. -/
def same32 (s t : State) : Prop := ∀ r, x32 t r = x32 s r

/-- Every byte of memory, and MEM_SIZE, is unchanged. -/
def sameMem (s t : State) : Prop := t.mem.size = s.mem.size ∧ ∀ a, t.mem.read a = s.mem.read a

/-- The output buffer and its capacity are unchanged. -/
def sameOut (s t : State) : Prop := t.out = s.out ∧ t.outCapacity = s.outCapacity

/-- The run status and the fault record are unchanged. -/
def sameRun (s t : State) : Prop := t.status = s.status ∧ t.fault = s.fault

/-- The value of an 8-bit source: a register, or the byte at the ptr_c address, if it is backed. -/
def source8 (s : State) (r : Reg8) : Option Byte :=
  if r = .ptrC then s.mem.read (ptrCAddr s).toNat else x8 s r

/-- The value of a 32-bit source: a register, or the advanced pc of a one-byte instruction. -/
def source32 (s : State) (r : Reg32) : Word := (x32 s r).getD (nextPc s 1)

/-- v went to the 8-bit destination dst and nowhere else: for a register all memory is unchanged; for ptr_c
every register is, and so is every byte but the one at the ptr_c address of the state before. -/
def wrote8 (s t : State) (dst : Reg8) (v : Byte) : Prop :=
  same8But s t dst ∧
  (dst ≠ .ptrC → x8 t dst = some v ∧ sameMem s t) ∧
  (dst = .ptrC → t.mem.size = s.mem.size ∧ t.mem.read (ptrCAddr s).toNat = some v ∧
    ∀ a, a ≠ (ptrCAddr s).toNat → t.mem.read a = s.mem.read a)

/-- The run was aborted with this cause and access, and no register, byte of memory or output byte changed. -/
def abortedWith (s t : State) (cause : Cause) (access : Option Access) : Prop :=
  t.status = .aborted ∧ (∃ r, t.fault = some r ∧ r.cause = cause ∧ r.access = access) ∧
  same8 s t ∧ same32 s t ∧ t.pc = s.pc ∧ sameMem s t ∧ sameOut s t

/-- The state before a fault with the run aborted and this fault record, all else unchanged (R97, R101). -/
def abortState (s : State) (cause : Cause) (access : Option Access) (opcode : Option Byte) (addr : Option Word) :
    State :=
  { s with
    status := .aborted
    fault := some { cause := cause, access := access, faultPc := s.pc, opcode := opcode, addr := addr } }

/-- These bytes stand in memory from pc on, modulo 2^32. -/
def bytesAtPc (s : State) (bs : List Byte) : Prop :=
  ∀ k, k < bs.length → s.mem.read ((s.pc.toNat + k) % 2 ^ 32) = bs[k]?

/-! ## The opcode tables -/

/-- The decode function of R56, from its pseudocode: name, size, d and s (0 where it gives none). -/
def decodeR56 (op : Nat) : Option (Mnemonic × Nat × Nat × Nat) :=
  let tt := op / 64
  let d := op / 8 % 8
  let s := op % 8
  if op = 0x01 then some (.HALT, 1, 0, 0)
  else if op = 0x02 then some (.OUT, 1, 0, 0)
  else if op = 0xC1 then some (.CMP, 1, 0, 0)
  else if op = 0xC2 then some (.ADD, 1, 0, 0)
  else if op = 0xC3 then some (.SUB, 1, 0, 0)
  else if op = 0xC4 then some (.XOR, 1, 0, 0)
  else if op = 0xE1 then some (.APTR, 2, 0, 0)
  else if op = 0x21 then some (.JEZ, 5, 0, 0)
  else if op = 0x22 then some (.JNZ, 5, 0, 0)
  else if tt = 1 then
    if d = 0 then none else if s = 0 then some (.MVI8, 2, d, 0) else some (.MV8, 1, d, s)
  else if tt = 2 then
    if d = 0 ∨ d = 7 then none
    else if s = 0 then some (.MVI32, 5, d, 0)
    else if s = 7 then none
    else some (.MV32, 1, d, s)
  else none

/-- What the decoder's answer shows of name, size, d and s. -/
def headView (h : Head) : Mnemonic × Nat × Nat × Nat :=
  match h with
  | .halt => (.HALT, h.size, 0, 0)
  | .out => (.OUT, h.size, 0, 0)
  | .cmp => (.CMP, h.size, 0, 0)
  | .add => (.ADD, h.size, 0, 0)
  | .sub => (.SUB, h.size, 0, 0)
  | .xor => (.XOR, h.size, 0, 0)
  | .aptr => (.APTR, h.size, 0, 0)
  | .jez => (.JEZ, h.size, 0, 0)
  | .jnz => (.JNZ, h.size, 0, 0)
  | .mv8 dst src => (.MV8, h.size, num8 dst, num8 src)
  | .mvi8 dst => (.MVI8, h.size, num8 dst, 0)
  | .mv32 dst src => (.MV32, h.size, num32 dst, num32 src)
  | .mvi32 dst => (.MVI32, h.size, num32 dst, 0)

/-- The unrecognized opcode bytes as R61 lists them. -/
def unrecognized (op : Nat) : Bool :=
  op == 0x00 || (0x03 ≤ op && op ≤ 0x20) || (0x23 ≤ op && op ≤ 0x47) || (0x80 ≤ op && op ≤ 0x87) ||
  op == 0x8F || op == 0x97 || op == 0x9F || op == 0xA7 || op == 0xAF ||
  (0xB7 ≤ op && op ≤ 0xC0) || (0xC5 ≤ op && op ≤ 0xE0) || (0xE2 ≤ op && op ≤ 0xFF)

/-- The four bytes of an imm32, the least significant first (R39, R51). -/
def leBytes (w : Word) : List Byte :=
  [BitVec.ofNat 8 (w.toNat % 256), BitVec.ofNat 8 (w.toNat / 256 % 256), BitVec.ofNat 8 (w.toNat / 65536 % 256),
    BitVec.ofNat 8 (w.toNat / 16777216 % 256)]

/-! ## Who writes what -/

/-- The table of R16: the instruction may write this 8-bit register. -/
def writes8 (i : Instr) (r : Reg8) : Bool :=
  match i with
  | .add | .sub | .xor => r == .a
  | .cmp => r == .f
  | .mv8 dst _ => r == dst
  | .mvi8 dst _ => r == dst
  | _ => false

/-- The table of R21: the instruction may write this 32-bit register, pc apart. -/
def writes32 (i : Instr) (r : Reg32) : Bool :=
  match i with
  | .aptr _ => r == .ptr
  | .mv32 dst _ => r == dst
  | .mvi32 dst _ => r == dst
  | _ => false

/-- The instruction stores to memory: MV8 or MVI8 with destination ptr_c (R35, R69). -/
def stores (i : Instr) : Bool :=
  match i with
  | .mv8 .ptrC _ => true
  | .mvi8 .ptrC _ => true
  | _ => false

/-- The instruction stores v through ptr_c: MVI8 with that immediate, or MV8 from a source with that value (R92,
R93). -/
def storesByte (i : Instr) (s : State) (v : Byte) : Prop :=
  i = .mvi8 .ptrC v ∨ ∃ src, i = .mv8 .ptrC src ∧ source8 s src = some v

/-- The line of an instruction with the other name of its mnemonic: MV for MV8, MVI for MVI8 (R63). -/
def aliasLine (i : Instr) : Option AsmLine :=
  match i with
  | .mv8 _ _ => some { listing i with mnemonic := .MV }
  | .mvi8 _ _ => some { listing i with mnemonic := .MVI }
  | .halt | .out | .cmp | .add | .sub | .xor | .aptr _ | .jez _ | .jnz _ | .mv32 _ _ | .mvi32 _ _ => none

/-- The next pc of R75 for an instruction that commits. -/
def nextPcOf (i : Instr) (s : State) : Word :=
  match i with
  | .jez t => if s.f = 0 then t else nextPc s 5
  | .jnz t => if s.f = 0 then nextPc s 5 else t
  | .mv32 .pc src => source32 s src
  | .mvi32 .pc t => t
  | .mvi32 _ _ => nextPc s 5
  | .aptr _ | .mvi8 _ _ => nextPc s 2
  | .halt | .out | .cmp | .add | .sub | .xor | .mv8 _ _ | .mv32 _ _ => nextPc s 1

end Sys2Proof.Spec

open Sys2Proof Sys2Proof.Machine Sys2Proof.Spec

/-! ## The ALU (42_alu.md) -/

/-- R84: CMP writes f with 0 when a = b, else 1, and nothing else but pc. -/
def Obligations.CmpSetsFlagToInequality : Prop :=
  ∀ s : State, encode .cmp = [0xC1] ∧
    exec .cmp s = .next { s with f := if s.a = s.b then 0 else 1, pc := nextPc s 1 }

/-- R85: ADD stores (a + b) mod 256 in a; no flag, no other change but pc. -/
def Obligations.AddStoresSumModulo256 : Prop :=
  ∀ s : State, encode .add = [0xC2] ∧
    exec .add s = .next { s with a := BitVec.ofNat 8 ((s.a.toNat + s.b.toNat) % 256), pc := nextPc s 1 }

/-- R86: SUB stores a - b, plus 256 when a < b, in a; no flag, no other change but pc. -/
def Obligations.SubStoresDifferenceModulo256 : Prop :=
  ∀ s : State, encode .sub = [0xC3] ∧
    exec .sub s =
      .next { s with
        a := BitVec.ofNat 8 (if s.b.toNat ≤ s.a.toNat then s.a.toNat - s.b.toNat else s.a.toNat + 256 - s.b.toNat)
        pc := nextPc s 1 }

/-- R87: every bit of a after XOR is the exclusive or of the bits of a and b; no other change but pc. -/
def Obligations.XorStoresBitwiseExclusiveOr : Prop :=
  ∀ s : State, encode .xor = [0xC4] ∧
    ∃ v : Byte, exec .xor s = .next { s with a := v, pc := nextPc s 1 } ∧
      ∀ k, k < 8 → v.getLsbD k = (s.a.getLsbD k != s.b.getLsbD k)

/-! ## HALT and OUT (41_output_halt.md) -/

/-- R81: HALT sets HALTED with pc past it, changes nothing else, leaves no step, and makes the output buffer the
result. -/
def Obligations.HaltEndsTheRun : Prop :=
  ∀ (s : State) (expose : Bool), encode .halt = [0x01] ∧
    ∃ t, t = { s with pc := nextPc s 1, status := .halted } ∧ exec .halt s = .next t ∧
      (∀ u, step t ≠ .next u) ∧ hostResult expose t = .output s.out

/-- OUT appends the byte of a whenever the buffer is not full, always so when OUT_CAPACITY is unbounded. The
capacity is the spec's decision D7 (log 4), so no rule is cited. -/
def Obligations.OutAppendsTheAccumulator : Prop :=
  ∀ s : State, s.outCapacity ≠ some s.out.length →
    encode .out = [0x02] ∧ exec .out s = .next { s with out := s.out ++ [s.a], pc := nextPc s 1 }

/-- OUT on a full bounded buffer aborts with (3, NONE, p, 0x02, NONE) and nothing else happens. Decisions D4, D5
and D7 (logs 4, 9, 10). -/
def Obligations.OutOnAFullBufferAborts : Prop :=
  ∀ s : State, s.outCapacity = some s.out.length →
    exec .out s = .next (abortState s .outputOverflow none (some 0x02) none)

/-- The output buffer: only OUT writes it, by appending the byte of a. The buffer of bytes is decision D6
(log 11). -/
def Obligations.OnlyOutWritesTheOutputBuffer : Prop :=
  ∀ (i : Instr) (s t : State), exec i s = .next t →
    (i ≠ .out → t.out = s.out) ∧ (i = .out → t.out = s.out ∨ t.out = s.out ++ [s.a])

/-- Over any number of steps the output buffer only grows at its end (append order is execution order). -/
def Obligations.OutputIsNeverTakenBack : Prop :=
  ∀ (n : Nat) (s : State), s.out <+: (runBudget n s).out

/-! ## APTR (43_pointer.md) -/

/-- APTR adds imm8, as a number from 0 to 255, to ptr modulo 2^32, and changes nothing else but pc. That imm8 is
unsigned is decision D10 (log 8), so no rule is cited. -/
def Obligations.AptrAddsTheUnsignedImmediate : Prop :=
  ∀ (imm8 : Byte) (s : State), encode (.aptr imm8) = [0xE1, imm8] ∧
    exec (.aptr imm8) s =
      .next { s with ptr := BitVec.ofNat 32 ((s.ptr.toNat + imm8.toNat) % 2 ^ 32), pc := nextPc s 2 }

/-! ## JEZ and JNZ (44_branch.md) -/

/-- JEZ sets pc to imm32 exactly when f is 0, else past itself, and changes nothing else. -/
def Obligations.JezJumpsWhenFlagIsZero : Prop :=
  ∀ (imm32 : Word) (s : State), encode (.jez imm32) = 0x21 :: leBytes imm32 ∧
    exec (.jez imm32) s = .next { s with pc := if s.f = 0 then imm32 else nextPc s 5 }

/-- JNZ sets pc to imm32 for every nonzero f, else past itself, and changes nothing else. -/
def Obligations.JnzJumpsWhenFlagIsNotZero : Prop :=
  ∀ (imm32 : Word) (s : State), encode (.jnz imm32) = 0x22 :: leBytes imm32 ∧
    exec (.jnz imm32) s = .next { s with pc := if s.f = 0 then nextPc s 5 else imm32 }

/-- R17: CMP and the moves into f write f as stated, nothing else does, JEZ and JNZ test it for zero, and it
resets to 0. -/
def Obligations.FlagRegisterIsWrittenOnlyByCmpAndMoves : Prop :=
  State.reset.f = 0 ∧
  ∀ (i : Instr) (s t : State), exec i s = .next t →
    (i = .cmp → t.f = if s.a = s.b then 0 else 1) ∧
    (∀ v, i = .mvi8 .f v → t.f = v) ∧
    (∀ src v, i = .mv8 .f src → source8 s src = some v → t.f = v) ∧
    (writes8 i .f = false → t.f = s.f) ∧
    (∀ target, i = .jez target → (t.pc = if s.f = 0 then target else nextPc s 5)) ∧
    (∀ target, i = .jnz target → (t.pc = if s.f ≠ 0 then target else nextPc s 5))

/-- A taken jump to its own address leaves the machine RUNNING for ever: the block does not detect it. -/
def Obligations.JumpToItselfNeverEnds : Prop :=
  ∀ s : State, s.status = .running → s.f = 0 → bytesAtPc s (0x21 :: leBytes s.pc) → RunsForEver s

/-- The next pc of every instruction that commits is the one R75 selects; an instruction that aborts leaves pc.
R75 rests in part on an inference of the spec, so no rule is cited. -/
def Obligations.NextPcIsSelectedAsListed : Prop :=
  ∀ (i : Instr) (s t : State), s.status = .running → exec i s = .next t →
    (t.status ≠ .aborted → t.pc = nextPcOf i s) ∧ (t.status = .aborted → t.pc = s.pc)

/-! ## The move family (45_move.md) -/

/-- R92: MV8 for all 49 pairs: its encoding, its copy with its frame, and its two exceptions. -/
def Obligations.Mv8CopiesSourceToDestination : Prop :=
  ∀ (dst src : Reg8) (s : State),
    encode (.mv8 dst src) = [BitVec.ofNat 8 (64 + 8 * num8 dst + num8 src)] ∧
    (∀ v, source8 s src = some v → (dst = .ptrC → (ptrCAddr s).toNat < s.mem.size) →
      ∃ t, exec (.mv8 dst src) s = .next t ∧ wrote8 s t dst v ∧ t.pc = nextPc s 1 ∧
        same32 s t ∧ sameOut s t ∧ sameRun s t) ∧
    (src = .ptrC → s.mem.size ≤ (ptrCAddr s).toNat →
      ∃ t, exec (.mv8 dst src) s = .next t ∧ abortedWith s t .outOfBounds (some .dataRead)) ∧
    (src ≠ .ptrC → dst = .ptrC → s.mem.size ≤ (ptrCAddr s).toNat →
      ∃ t, exec (.mv8 dst src) s = .next t ∧ abortedWith s t .outOfBounds (some .dataWrite))

/-- R93: MVI8 for all 7 destinations: its encoding, its store with its frame, and its two exceptions. -/
def Obligations.Mvi8StoresTheImmediate : Prop :=
  ∀ (dst : Reg8) (imm8 : Byte) (s : State),
    encode (.mvi8 dst imm8) = [BitVec.ofNat 8 (64 + 8 * num8 dst), imm8] ∧
    ((dst = .ptrC → (ptrCAddr s).toNat < s.mem.size) →
      ∃ t, exec (.mvi8 dst imm8) s = .next t ∧ wrote8 s t dst imm8 ∧ t.pc = nextPc s 2 ∧
        same32 s t ∧ sameOut s t ∧ sameRun s t) ∧
    (dst = .ptrC → s.mem.size ≤ (ptrCAddr s).toNat →
      ∃ t, exec (.mvi8 dst imm8) s = .next t ∧ abortedWith s t .outOfBounds (some .dataWrite)) ∧
    (s.status = .running → s.mem.read s.pc.toNat = some (BitVec.ofNat 8 (64 + 8 * num8 dst)) →
      s.mem.size ≤ (nextPc s 1).toNat →
      ∃ t, step s = .next t ∧ abortedWith s t .outOfBounds (some .fetchImmediate))

/-- R94: MV32 for all 36 pairs: its encoding, its copy, pc read advanced, pc written as a jump, its frame. -/
def Obligations.Mv32CopiesSourceToDestination : Prop :=
  ∀ (dst src : Reg32) (s : State),
    encode (.mv32 dst src) = [BitVec.ofNat 8 (128 + 8 * num32 dst + num32 src)] ∧
    ∃ t, exec (.mv32 dst src) s = .next t ∧
      (dst ≠ .pc → x32 t dst = some (source32 s src) ∧ t.pc = nextPc s 1) ∧
      (dst = .pc → t.pc = source32 s src) ∧
      same32But s t dst ∧ same8 s t ∧ sameMem s t ∧ sameOut s t ∧ sameRun s t

/-- R95: MVI32 for all 6 destinations: its encoding, its store or jump, its frame, and its exception at any of
the four immediate bytes. -/
def Obligations.Mvi32StoresTheImmediate : Prop :=
  ∀ (dst : Reg32) (imm32 : Word) (s : State),
    encode (.mvi32 dst imm32) = BitVec.ofNat 8 (128 + 8 * num32 dst) :: leBytes imm32 ∧
    (∃ t, exec (.mvi32 dst imm32) s = .next t ∧
      (dst ≠ .pc → x32 t dst = some imm32 ∧ t.pc = nextPc s 5) ∧
      (dst = .pc → t.pc = imm32) ∧
      same32But s t dst ∧ same8 s t ∧ sameMem s t ∧ sameOut s t ∧ sameRun s t) ∧
    (∀ k, 1 ≤ k → k ≤ 4 → s.status = .running →
      s.mem.read s.pc.toNat = some (BitVec.ofNat 8 (128 + 8 * num32 dst)) → s.mem.size ≤ (nextPc s k).toNat →
      ∃ t, step s = .next t ∧ abortedWith s t .outOfBounds (some .fetchImmediate))

/-! ## Registers and memory as a whole -/

/-- A register changes only in an instruction that the access tables of the 8-bit and 32-bit files list as writing
it. The tables are the spec's own inference. -/
def Obligations.RegistersChangeOnlyAsListed : Prop :=
  ∀ (i : Instr) (s t : State), exec i s = .next t →
    (∀ r, writes8 i r = false → x8 t r = x8 s r) ∧ (∀ r, writes32 i r = false → x32 t r = x32 s r)

/-- Memory changes only in MV8 and MVI8 to ptr_c, and only at the ptr_c address of the state before; MEM_SIZE and
OUT_CAPACITY never change. -/
def Obligations.OnlyPtrCMovesWriteMemory : Prop :=
  ∀ (i : Instr) (s t : State), exec i s = .next t →
    t.mem.size = s.mem.size ∧ t.outCapacity = s.outCapacity ∧
    (stores i = false → ∀ a, t.mem.read a = s.mem.read a) ∧
    ∀ a, a ≠ (ptrCAddr s).toNat → t.mem.read a = s.mem.read a

/-- R38: ptr_c is the byte at (ptr + c) mod 2^32: its read and its write, bounds-checked, with what they leave. -/
def Obligations.PtrCIsTheByteAtPtrPlusC : Prop :=
  ∀ (s : State) (v : Byte),
    (ptrCAddr s).toNat = (s.ptr.toNat + s.c.toNat) % 2 ^ 32 ∧
    (∀ w, s.mem.read ((s.ptr.toNat + s.c.toNat) % 2 ^ 32) = some w → read8 s .ptrC = .ok w) ∧
    (s.mem.size ≤ (s.ptr.toNat + s.c.toNat) % 2 ^ 32 →
      read8 s .ptrC = .error (Raise.outOfBounds .dataRead (ptrCAddr s)) ∧
      write8 s .ptrC v = .error (Raise.outOfBounds .dataWrite (ptrCAddr s))) ∧
    ((s.ptr.toNat + s.c.toNat) % 2 ^ 32 < s.mem.size →
      ∃ t, write8 s .ptrC v = .ok t ∧ wrote8 s t .ptrC v ∧ same32 s t ∧ t.pc = s.pc ∧ sameOut s t ∧ sameRun s t)

/-- R33 and R34: a read gives the byte below MEM_SIZE and raises OUT_OF_BOUNDS with its access at or above it; a
write stores there and changes that one byte only, or raises with DATA_WRITE. -/
def Obligations.MemoryAccessesAreBoundsChecked : Prop :=
  ∀ (s : State) (access : Access) (addr : Word) (v : Byte),
    (addr.toNat < s.mem.size →
      (∃ w, s.mem.read addr.toNat = some w ∧ memRead access s addr = .ok w) ∧
      ∃ t, memWrite s addr v = .ok t ∧ t.mem.size = s.mem.size ∧ t.mem.read addr.toNat = some v ∧
        (∀ a, a ≠ addr.toNat → t.mem.read a = s.mem.read a) ∧ t = s.setMem t.mem) ∧
    (s.mem.size ≤ addr.toNat →
      memRead access s addr = .error { cause := .outOfBounds, access := some access, addr := some addr } ∧
      memWrite s addr v = .error { cause := .outOfBounds, access := some .dataWrite, addr := some addr })

/-- Any byte v that MV8 or MVI8 stores through ptr_c is what every kind of access at that address reads in the next
state, and, where pc is there, the opcode of the very next step: of the instruction it fetches, of the abort if the fetch raises. The
coherence rules are in part the spec's own inference, so no rule is cited; the fault record is decisions D4 and D5
(logs 9, 10). -/
def Obligations.NextFetchSeesTheStoredByte : Prop :=
  ∀ (i : Instr) (v : Byte) (s t : State), storesByte i s v → exec i s = .next t → t.status = .running →
    (∀ access, memRead access t (ptrCAddr s) = .ok v) ∧
    (t.pc = ptrCAddr s →
      (∀ j, fetch t = .ok j → opcodeOf j = v) ∧
      (∀ e op, fetch t = .error (e, op) → op = some v) ∧
      (∀ j, encode j = [v] → step t = exec j t) ∧
      (unrecognized v.toNat = true → step t = .next (abortState t .unrecognizedOpcode none (some v) none)))

/-- An instruction that overwrites its own opcode byte still runs as fetched: MV8 ptr_c <- a at ptr + c = pc.
Decision D3 (log 7). -/
def Obligations.OverwritingOwnOpcodeStillCompletes : Prop :=
  ∀ s : State, s.status = .running → s.mem.read s.pc.toNat = some 0x79 → ptrCAddr s = s.pc →
    ∃ t, step s = .next t ∧ wrote8 s t .ptrC s.a ∧ t.mem.read s.pc.toNat = some s.a ∧ t.pc = nextPc s 1 ∧
      same32 s t ∧ sameOut s t ∧ sameRun s t

/-- An MV8 or MVI8 that stores into one of its own bytes, its opcode or its immediate, still completes with the
operands that were fetched. Decision D3 (log 7). -/
def Obligations.SelfOverwritingStoreUsesTheFetchedBytes : Prop :=
  ∀ (i : Instr) (v : Byte) (s : State) (k : Nat), s.status = .running → bytesAtPc s (encode i) → storesByte i s v →
    k < (encode i).length → ptrCAddr s = nextPc s k →
    ∃ t, step s = .next t ∧ wrote8 s t .ptrC v ∧ t.pc = nextPc s (encode i).length ∧ same32 s t ∧ sameOut s t ∧
      sameRun s t

/-! ## Fetch, decode, encode (30_encoding.md) -/

/-- R56: the decode function on all 256 opcode bytes is the spec's pseudocode. -/
def Obligations.DecodeOpcodeIsTheSpecsFunction : Prop :=
  ∀ op : Byte, (decodeOpcode op).map headView = decodeR56 op.toNat

/-- The bytes without an instruction are exactly those the spec lists, 149 of them, leaving 107. The list is the
spec's own derivation. -/
def Obligations.UnrecognizedBytesAreExactlyTheListed : Prop :=
  (∀ op : Byte, decodeOpcode op = none ↔ unrecognized op.toNat = true) ∧
  ((List.range 256).filter fun op => unrecognized op).length = 149

/-- A few words written out from the encodings decode to their instructions. -/
def Obligations.SampleEncodingsDecode : Prop :=
  decode [0x01] = .ok .halt [] ∧
  decode [0xC1, 0x01] = .ok .cmp [0x01] ∧
  decode [0xE1, 0xFF] = .ok (.aptr 0xFF) [] ∧
  decode [0x21, 0x3A, 0x00, 0x00, 0x00] = .ok (.jez 0x3A) [] ∧
  decode [0x4F] = .ok (.mv8 .a .ptrC) [] ∧
  decode [0x50, 0x48] = .ok (.mvi8 .b 0x48) [] ∧
  decode [0xAA] = .ok (.mv32 .ptr .lb) [] ∧
  decode [0x88, 0x78, 0x56, 0x34, 0x12] = .ok (.mvi32 .la 0x12345678) []

/-- Decoding the encoding of any instruction, with any bytes after it, gives it and those bytes back. -/
def Obligations.DecodeInvertsEncode : Prop :=
  ∀ (i : Instr) (rest : List Byte), decode (encode i ++ rest) = .ok i rest

/-- Whatever decodes was encoded so: each instruction has one encoding and no bit of it is ignored. -/
def Obligations.EncodeInvertsDecode : Prop :=
  ∀ (bs : List Byte) (i : Instr) (rest : List Byte), decode bs = .ok i rest → bs = encode i ++ rest

/-- The immediate of a five-byte instruction at pc is b1 + 256 b2 + 65536 b3 + 16777216 b4, its bytes read at
pc + 1 to pc + 4 modulo 2^32. -/
def Obligations.FetchAssemblesLittleEndian : Prop :=
  ∀ (s : State) (op b1 b2 b3 b4 : Byte), bytesAtPc s [op, b1, b2, b3, b4] →
    let v := b1.toNat + 256 * b2.toNat + 65536 * b3.toNat + 16777216 * b4.toNat
    (op = 0x21 → ∃ w : Word, fetch s = .ok (.jez w) ∧ w.toNat = v) ∧
    (op = 0x22 → ∃ w : Word, fetch s = .ok (.jnz w) ∧ w.toNat = v) ∧
    (∀ dst, op = BitVec.ofNat 8 (128 + 8 * num32 dst) → ∃ w : Word, fetch s = .ok (.mvi32 dst w) ∧ w.toNat = v)

/-- While RUNNING, when the bytes at pc decode to i, the step is exec of i on that very state: exec makes the pc
advance itself, and step adds nothing. -/
def Obligations.StepRunsTheDecodedInstruction : Prop :=
  ∀ (s : State) (i : Instr) (bs rest : List Byte), s.status = .running → bytesAtPc s bs → decode bs = .ok i rest →
    step s = exec i s

/-- The model's host interface (log 3): the instruction decodeTableWord reads is the one the next step runs. -/
def Obligations.PlacedWordIsTheNextInstruction : Prop :=
  ∀ (s : State) (nbits w : Nat) (i : Instr), decodeTableWord nbits w = some i →
    step (s.withFetchWord nbits w) = exec i (s.withFetchWord nbits w)

/-! ## Faults (60_exceptions.md) -/

/-- A pc at or beyond MEM_SIZE aborts with (2, FETCH_OPCODE, pc, NONE, pc). Decisions D4, D5 (logs 9, 10). -/
def Obligations.FetchBeyondMemoryAborts : Prop :=
  ∀ s : State, s.status = .running → s.mem.size ≤ s.pc.toNat →
    step s = .next (abortState s .outOfBounds (some .fetchOpcode) none (some s.pc))

/-- A listed unrecognized byte at pc aborts with (1, NONE, pc, byte, NONE), whatever follows it. Decisions D4, D5
(logs 9, 10). -/
def Obligations.UnrecognizedOpcodeAborts : Prop :=
  ∀ (s : State) (op : Byte), s.status = .running → s.mem.read s.pc.toNat = some op →
    unrecognized op.toNat = true → step s = .next (abortState s .unrecognizedOpcode none (some op) none)

/-- An instruction whose immediate is not all in memory aborts with FETCH_IMMEDIATE at its first missing byte,
whatever f and the ptr_c address are. Decisions D3, D4, D5, D16 (logs 7, 9, 10). -/
def Obligations.TruncatedInstructionAborts : Prop :=
  ∀ (s : State) (i : Instr) (k : Nat), s.status = .running → s.mem.read s.pc.toNat = some (opcodeOf i) →
    1 ≤ k → k < (encode i).length → s.mem.size ≤ (nextPc s k).toNat →
    (∀ j, 1 ≤ j → j < k → (nextPc s j).toNat < s.mem.size) →
    step s = .next (abortState s .outOfBounds (some .fetchImmediate) (some (opcodeOf i)) (some (nextPc s k)))

/-- A read through ptr_c out of bounds aborts with (2, DATA_READ, pc, opcode, ptr + c), even when the destination
is ptr_c too. Decisions D4, D5, D16 (logs 9, 10, 14). -/
def Obligations.DataReadOutOfBoundsAborts : Prop :=
  ∀ (dst : Reg8) (s : State), s.mem.size ≤ (ptrCAddr s).toNat →
    exec (.mv8 dst .ptrC) s =
      .next (abortState s .outOfBounds (some .dataRead) (some (BitVec.ofNat 8 (64 + 8 * num8 dst + 7)))
        (some (ptrCAddr s)))

/-- A write through ptr_c out of bounds aborts with (2, DATA_WRITE, pc, opcode, ptr + c). Decisions D4, D5 (logs 9,
10, 14). -/
def Obligations.DataWriteOutOfBoundsAborts : Prop :=
  ∀ (s : State), s.mem.size ≤ (ptrCAddr s).toNat →
    (∀ src, src ≠ Reg8.ptrC →
      exec (.mv8 .ptrC src) s =
        .next (abortState s .outOfBounds (some .dataWrite) (some (BitVec.ofNat 8 (120 + num8 src)))
          (some (ptrCAddr s)))) ∧
    ∀ imm8, exec (.mvi8 .ptrC imm8) s =
      .next (abortState s .outOfBounds (some .dataWrite) (some 0x78) (some (ptrCAddr s)))

/-- R76: a step that aborts commits no register write (pc among them), no memory write, no output append, and
changes no status but to ABORTED; it performs the abort: a fault is recorded, with the pc of this step. -/
def Obligations.AbortingStepCommitsNothing : Prop :=
  ∀ s t : State, step s = .next t → t.status = .aborted →
    same8 s t ∧ same32 s t ∧ t.pc = s.pc ∧ sameMem s t ∧ sameOut s t ∧ s.status = .running ∧
    ∃ r, t.fault = some r ∧ r.faultPc = s.pc

/-- The table of faults per instruction: once fetched, only OUT, MV8 and MVI8 can abort, and only so. The table is
the spec's own inference. -/
def Obligations.OnlyListedInstructionsAbort : Prop :=
  ∀ (i : Instr) (s t : State), s.status = .running → exec i s = .next t → t.status = .aborted →
    (i = .out ∧ s.outCapacity = some s.out.length ∧ abortedWith s t .outputOverflow none) ∨
    (s.mem.size ≤ (ptrCAddr s).toNat ∧
      ((∃ dst, i = .mv8 dst .ptrC ∧ abortedWith s t .outOfBounds (some .dataRead)) ∨
       (∃ src, src ≠ .ptrC ∧ i = .mv8 .ptrC src ∧ abortedWith s t .outOfBounds (some .dataWrite)) ∨
       (∃ v, i = .mvi8 .ptrC v ∧ abortedWith s t .outOfBounds (some .dataWrite))))

/-! ## Status and run (10_state.md R25, 40_dispatch.md R72, R79, R80) -/

/-- R72: when status is HALTED or ABORTED no step exists. -/
def Obligations.NoStepAfterTheRunEnds : Prop :=
  ∀ s t : State, s.status ≠ .running → step s ≠ .next t

/-- A step starts RUNNING; it ends HALTED exactly when the opcode at pc is HALT's; it ends ABORTED exactly when it
writes the fault record, with the pc of this step; else the record is as before. -/
def Obligations.StatusChangesOnlyByHaltOrFault : Prop :=
  ∀ s t : State, step s = .next t →
    s.status = .running ∧
    (t.status = .halted ↔ s.mem.read s.pc.toNat = some 0x01) ∧
    (t.status = .aborted → ∃ r, t.fault = some r ∧ r.faultPc = s.pc) ∧
    (t.status ≠ .aborted → t.fault = s.fault)

/-- The host's view: output exactly on HALTED, the error with the record on ABORTED, its partial output only when
exposed, unfinished while RUNNING. Decision D8 (log 5). -/
def Obligations.HostSeesOutputOnlyAfterHalt : Prop :=
  ∀ (expose : Bool) (s : State),
    (∀ bytes, hostResult expose s = .output bytes ↔ s.status = .halted ∧ bytes = s.out) ∧
    (s.status = .aborted → hostResult expose s = .error s.fault (if expose = true then some s.out else none)) ∧
    (s.status = .running → hostResult expose s = .unfinished)

/-- When a budget of n steps runs out, the machine has taken n steps, is still RUNNING and has recorded no fault,
unless one of the steps ended the run HALTED or ABORTED; that step is then the last. A run that has ended takes none.
Decision D14 (log 6). -/
def Obligations.BudgetEndsNoRun : Prop :=
  ∀ (n : Nat) (s : State),
    (s.status ≠ .running → runBudget n s = s) ∧
    (s.status = .running →
      ((runBudget n s).status = .running ∧ (runBudget n s).fault = s.fault ∧
        ∀ k, k < n → step (runBudget k s) = .next (runBudget (k + 1) s)) ∨
      ((runBudget n s).status ≠ .running ∧
        ∃ k, k < n ∧ (runBudget k s).status = .running ∧ (runBudget k s).fault = s.fault ∧
          step (runBudget k s) = .next (runBudget n s)))

/-! ## Reset (10_state.md R30, 70_reset_and_hazards.md R115) -/

/-- The load of an image sets every element of the reset table: MEM_SIZE, every byte, every register, the output, the
status and the fault record; and OUT_CAPACITY, the model's own field for decision D7 (log 4), so no rule is cited. -/
def Obligations.LoadSetsEveryElement : Prop :=
  ∀ (image : List Byte) (cap : Option Nat), image.length ≤ 2 ^ 32 →
    ∃ t, load image cap = .next t ∧ t.mem.size = image.length ∧ (∀ k, t.mem.read k = image[k]?) ∧
      (∀ r, r ≠ Reg8.ptrC → x8 t r = some 0) ∧ (∀ r, r ≠ Reg32.pc → x32 t r = some 0) ∧ t.pc = 0 ∧
      t.out = [] ∧ t.outCapacity = cap ∧ t.status = .running ∧ t.fault = none

/-- An image longer than 2^32 bytes is refused at load. Decision D9 (log 12). -/
def Obligations.LoadRefusesTooLongImages : Prop :=
  ∀ (image : List Byte) (cap : Option Nat), 2 ^ 32 < image.length → load image cap = .refused .imageTooLong

/-- The model's State.reset is the load of the empty image with the default capacity, and its first step finds no
opcode byte (log 3). -/
def Obligations.ResetIsTheLoadOfTheEmptyImage : Prop :=
  load [] Config.outCapacityDefault = .next State.reset ∧
  step State.reset = .next (abortState State.reset .outOfBounds (some .fetchOpcode) none (some 0))

/-! ## Invariant, units, notation -/

/-- The invariant holds at reset. Its canonical form of memory is the model's (log 2). -/
def Obligations.InvariantHoldsAtReset : Prop := State.reset.Inv

/-- The invariant holds after the load of any image that is accepted (log 2). -/
def Obligations.InvariantHoldsAfterLoad : Prop :=
  ∀ (image : List Byte) (cap : Option Nat) (t : State), load image cap = .next t → t.Inv

/-- Every step keeps the invariant: canonical memory, bounded output, a fault recorded exactly when aborted, and a
record that the state explains, its opcode being the byte at pc. The canonical form is the model's (log 2), the record's layout decision D4 (log 10). -/
def Obligations.EveryStepKeepsTheInvariant : Prop :=
  ∀ s t : State, s.Inv → step s = .next t → t.Inv

/-- The eight units, composed through their interfaces, make exactly the step. The interfaces are decision D1
(log 13). -/
def Obligations.UnitsComposeToTheStep : Prop := ∀ s : State, unitStep s = step s

/-- The assembler gives back every instruction from its listing. Decision D11 (log 15). -/
def Obligations.AssembleInvertsListing : Prop := ∀ i : Instr, assemble (listing i) = some i

/-- A line assembles to i exactly when it is the listing of i or that line with MV for MV8 or MVI for MVI8, and a
line is well formed exactly when it is such a line of some i: this fixes the operands of OUT, ADD, SUB and XOR, the
ranges of the immediates and the register spaces. Decision D11 (log 15). -/
def Obligations.AssemblerAcceptsExactlyTheSyntax : Prop :=
  ∀ l : AsmLine,
    (∀ i : Instr, assemble l = some i ↔ l = listing i ∨ aliasLine i = some l) ∧
    (wellFormed l = true ↔ ∃ i : Instr, l = listing i ∨ aliasLine i = some l)

/-- The text a disassembler prints for an instruction reads back as that instruction: every register name, every
fixed operand and every hexadecimal digit. Decision D11 (log 15). -/
def Obligations.AssemblerReadsTheListedText : Prop := ∀ i : Instr, assembleText (instrText i) = some i
end

