-- ==== Sys2Proof/Laws/Decode.lean ====
section
/-! SUPPORT. The opcode byte read and written: the small lemmas of the decoder and the encoder
(Sys2Proof/Decode.lean). -/

namespace Sys2Proof

/-- The opcode byte of a move decodes to it. -/
@[simp] theorem decodeOpcode_mv8 (dst src : Reg8) :
    decodeOpcode (moveOpcode 0b01#2 (reg8Index dst) (reg8Index src)) = some (.mv8 dst src) := by
  cases dst <;> cases src <;> decide

@[simp] theorem decodeOpcode_mvi8 (dst : Reg8) :
    decodeOpcode (moveOpcode 0b01#2 (reg8Index dst) 0#3) = some (.mvi8 dst) := by
  cases dst <;> decide

@[simp] theorem decodeOpcode_mv32 (dst src : Reg32) :
    decodeOpcode (moveOpcode 0b10#2 (reg32Index dst) (reg32Index src)) = some (.mv32 dst src) := by
  cases dst <;> cases src <;> decide

@[simp] theorem decodeOpcode_mvi32 (dst : Reg32) :
    decodeOpcode (moveOpcode 0b10#2 (reg32Index dst) 0#3) = some (.mvi32 dst) := by
  cases dst <;> decide

/-- An index names a register exactly when it is that register's index. -/
theorem reg8OfIndex_eq_some {i : BitVec 3} {r : Reg8} : reg8OfIndex i = some r ↔ i = reg8Index r := by
  revert i; cases r <;> decide

theorem reg32OfIndex_eq_some {i : BitVec 3} {r : Reg32} : reg32OfIndex i = some r ↔ i = reg32Index r := by
  revert i; cases r <;> decide

/-- The fields of a move's opcode byte are the ones it was made of, and nothing else is in it. -/
theorem moveOpcode_fields (op : Byte) : moveOpcode (fieldTt op) (fieldD op) (fieldS op) = op := by
  revert op; decide

/-- The opcode byte of an instruction does not depend on its immediates. -/
theorem opcodeOf_withImmediates (h : Head) (ib ib' : List Byte) :
    opcodeOf (h.withImmediates ib) = opcodeOf (h.withImmediates ib') := by
  cases h <;> rfl

/-- A recognized opcode byte is the one the encoder writes for its instruction. -/
theorem opcodeOf_of_decodeOpcode {op : Byte} {h : Head} (hd : decodeOpcode op = some h) (ib : List Byte) :
    opcodeOf (h.withImmediates ib) = op := by
  have key : ∀ op : Byte, (decodeOpcode op).all (fun h => opcodeOf (h.withImmediates []) == op) = true := by decide
  have := key op
  rw [hd] at this
  rw [opcodeOf_withImmediates h ib []]
  simpa using this

/-- imm32 assembled from its own bytes. -/
@[simp] theorem imm32Of_imm32Bytes (w : Word) : imm32Of (imm32Bytes w) = w := by
  simp only [imm32Of, imm32Bytes, le32, List.getD_cons_zero, List.getD_cons_succ]
  ext i hi
  simp
  grind

end Sys2Proof
end

