-- ==== Sys2Proof/Laws/Memory.lean ====
section
/-! SUPPORT. The memory: a read after a write, and the canonical form kept by every memory operation
(Machine/Ops.lean). -/

namespace Sys2Proof.Machine

/-! ## Reading what was written -/

theorem cellsGet_erase (cells : List Host.Cell) (a b : Nat) :
    cellsGet (cellsErase cells a) b = if b = a then 0 else cellsGet cells b := by
  induction cells with
  | nil => simp [cellsErase, cellsGet]
  | cons p rest ih =>
    obtain ⟨k, w⟩ := p
    by_cases hk : k = a
    · simp only [cellsErase, cellsGet, if_pos hk, ih]
      grind
    · simp only [cellsErase, cellsGet, if_neg hk, ih]
      grind

theorem cellsGet_insert (cells : List Host.Cell) (a b : Nat) (v : Byte) (h : cellsGet cells a = 0)
    (hn : ∀ p ∈ cells, p.1 ≠ a) :
    cellsGet (cellsInsert cells a v) b = if b = a then v else cellsGet cells b := by
  induction cells with
  | nil => simp [cellsInsert, cellsGet, eq_comm]
  | cons p rest ih =>
    obtain ⟨k, w⟩ := p
    have hk : k ≠ a := hn (k, w) (by simp)
    have hr : cellsGet rest a = 0 := by simpa [cellsGet, hk] using h
    have ih' := ih hr fun q hq => hn q (by simp [hq])
    simp only [cellsInsert]
    split
    · simp only [cellsGet]; grind
    · simp only [cellsGet, ih']; grind

theorem not_mem_cellsErase (cells : List Host.Cell) (a : Nat) : ∀ p ∈ cellsErase cells a, p.1 ≠ a := by
  induction cells with
  | nil => simp [cellsErase]
  | cons q rest ih =>
    obtain ⟨k, w⟩ := q
    by_cases hk : k = a
    · simpa [cellsErase, hk] using ih
    · intro p hp
      rcases (by simpa [cellsErase, hk] using hp : p = (k, w) ∨ p ∈ cellsErase rest a) with rfl | hp
      · exact hk
      · exact ih p hp

/-- A byte read after one byte was written, in any list of cells. -/
@[simp] theorem cellsGet_cellsSet (cells : List Host.Cell) (a b : Nat) (v : Byte) :
    cellsGet (cellsSet cells a v) b = if b = a then v else cellsGet cells b := by
  unfold cellsSet
  split
  · next hv => simp [cellsGet_erase, hv]
  · rw [cellsGet_insert _ _ _ _ (by simp [cellsGet_erase]) (not_mem_cellsErase cells a), cellsGet_erase]
    grind

/-- A byte of an image's cells. -/
theorem cellsGet_cellsFrom (image : List Byte) (lo k : Nat) :
    cellsGet (cellsFrom lo image) k = if lo ≤ k then image.getD (k - lo) 0 else 0 := by
  induction image generalizing lo with
  | nil => simp [cellsFrom, cellsGet]
  | cons v rest ih =>
    have step1 : ∀ j, lo < j → (v :: rest).getD (j - lo) 0 = rest.getD (j - (lo + 1)) 0 := by
      intro j hj
      obtain ⟨d, rfl⟩ : ∃ d, j = lo + 1 + d := ⟨j - (lo + 1), by omega⟩
      have : lo + 1 + d - lo = d + 1 := by omega
      simp [this]
    simp only [cellsFrom]
    split
    · next hv =>
      rw [ih]
      rcases lt_trichotomy k lo with h | rfl | h
      · simp [show ¬ lo + 1 ≤ k by omega, show ¬ lo ≤ k by omega]
      · simp [hv]
      · rw [if_pos (by omega), if_pos (by omega), step1 k h]
    · simp only [cellsGet, ih]
      rcases lt_trichotomy k lo with h | rfl | h
      · simp [show ¬ lo + 1 ≤ k by omega, show ¬ lo ≤ k by omega, show lo ≠ k by omega]
      · simp
      · rw [if_neg (by omega), if_pos (by omega), if_pos (by omega), step1 k h]

/-! ## The canonical form -/

theorem cellsWf_mono {lo lo' hi hi' : Nat} {cells : List Host.Cell} (hlo : lo' ≤ lo) (hhi : hi ≤ hi')
    (h : cellsWf lo hi cells = true) : cellsWf lo' hi' cells = true := by
  induction cells generalizing lo lo' with
  | nil => rfl
  | cons p rest ih =>
    obtain ⟨k, w⟩ := p
    simp only [cellsWf, Bool.and_eq_true, decide_eq_true_eq] at h ⊢
    exact ⟨⟨⟨by omega, by omega⟩, h.1.2⟩, ih (le_refl _) h.2⟩

theorem cellsWf_erase {lo hi : Nat} {cells : List Host.Cell} (a : Nat) (h : cellsWf lo hi cells = true) :
    cellsWf lo hi (cellsErase cells a) = true := by
  induction cells generalizing lo with
  | nil => rfl
  | cons p rest ih =>
    obtain ⟨k, w⟩ := p
    simp only [cellsWf, Bool.and_eq_true, decide_eq_true_eq] at h
    simp only [cellsErase]
    split
    · exact cellsWf_mono (by omega) (le_refl _) (ih h.2)
    · simp only [cellsWf, Bool.and_eq_true, decide_eq_true_eq]
      exact ⟨h.1, ih h.2⟩

theorem cellsWf_insert {lo hi : Nat} {cells : List Host.Cell} {a : Nat} {v : Byte} (hlo : lo ≤ a) (hhi : a < hi)
    (hv : v ≠ 0) (hn : ∀ p ∈ cells, p.1 ≠ a) (h : cellsWf lo hi cells = true) :
    cellsWf lo hi (cellsInsert cells a v) = true := by
  induction cells generalizing lo with
  | nil => simpa [cellsInsert, cellsWf, hlo, hhi] using hv
  | cons p rest ih =>
    obtain ⟨k, w⟩ := p
    have hk : k ≠ a := hn (k, w) (by simp)
    simp only [cellsWf, Bool.and_eq_true, decide_eq_true_eq] at h
    simp only [cellsInsert]
    split
    · simp only [cellsWf, Bool.and_eq_true, decide_eq_true_eq]
      exact ⟨⟨⟨hlo, hhi⟩, hv⟩, ⟨⟨by omega, h.1.1.2⟩, h.1.2⟩, h.2⟩
    · simp only [cellsWf, Bool.and_eq_true, decide_eq_true_eq]
      exact ⟨h.1, ih (by omega) (fun q hq => hn q (by simp [hq])) h.2⟩

theorem cellsWf_cellsSet {lo hi : Nat} {cells : List Host.Cell} {a : Nat} (v : Byte) (hlo : lo ≤ a) (hhi : a < hi)
    (h : cellsWf lo hi cells = true) : cellsWf lo hi (cellsSet cells a v) = true := by
  unfold cellsSet
  split
  · exact cellsWf_erase a h
  · next hv => exact cellsWf_insert hlo hhi hv (not_mem_cellsErase cells a) (cellsWf_erase a h)

theorem cellsWf_cellsFrom (image : List Byte) (lo : Nat) :
    cellsWf lo (lo + image.length) (cellsFrom lo image) = true := by
  induction image generalizing lo with
  | nil => rfl
  | cons v rest ih =>
    have h := ih (lo + 1)
    have e : lo + 1 + rest.length = lo + (v :: rest).length := by simp; omega
    rw [e] at h
    simp only [cellsFrom]
    split
    · exact cellsWf_mono (by omega) (le_refl _) h
    · next hv =>
      simp only [cellsWf, Bool.and_eq_true, decide_eq_true_eq]
      exact ⟨⟨⟨le_refl _, by simp⟩, hv⟩, h⟩

/-! ## Memory as a whole -/

/-- What Memory.write can do: it writes inside the bounds and keeps the size, or there is no such byte. -/
theorem Memory.write_eq_some {m m' : Memory} {a : Nat} {v : Byte} (h : m.write a v = some m') :
    a < m.size ∧ m'.size = m.size ∧ m'.read a = some v ∧ ∀ b, b ≠ a → m'.read b = m.read b := by
  unfold Memory.write at h
  split at h
  · next ha =>
    obtain rfl := Option.some.inj h
    refine ⟨ha, rfl, by simp [Memory.read, ha], fun b hb => ?_⟩
    simp [Memory.read, hb]
  · simp at h

theorem Memory.write_eq_none {m : Memory} {a : Nat} {v : Byte} : m.write a v = none ↔ m.size ≤ a := by
  simp [Memory.write]

theorem Memory.read_eq_none {m : Memory} {a : Nat} : m.read a = none ↔ m.size ≤ a := by
  simp [Memory.read]

theorem Memory.read_eq_some_lt {m : Memory} {a : Nat} {v : Byte} (h : m.read a = some v) : a < m.size := by
  unfold Memory.read at h
  split at h
  · assumption
  · simp at h

/-- A write keeps the canonical form. -/
theorem Memory.wf_write {m m' : Memory} {a : Nat} {v : Byte} (hm : m.wf = true) (h : m.write a v = some m') :
    m'.wf = true := by
  unfold Memory.write at h
  split at h
  · next ha =>
    obtain rfl := Option.some.inj h
    simp only [Memory.wf, Bool.and_eq_true, decide_eq_true_eq] at hm ⊢
    exact ⟨cellsWf_cellsSet v (Nat.zero_le _) ha hm.1, hm.2⟩
  · simp at h

/-- A loaded image has the canonical form. -/
theorem Memory.wf_ofImage {image : List Byte} (h : image.length ≤ Config.memSizeMax) :
    (Memory.ofImage image).wf = true := by
  have := cellsWf_cellsFrom image 0
  simp only [Nat.zero_add] at this
  simp [Memory.wf, Memory.ofImage, this, h]

/-- The host's placing of bytes keeps the canonical form. -/
theorem Memory.wf_place {m : Memory} {addr : Word} {bytes : List Byte} (hm : m.wf = true) :
    (m.place addr bytes).wf = true := by
  induction bytes generalizing m addr with
  | nil => exact hm
  | cons v rest ih =>
    refine ih ?_
    simp only [Memory.wf, Bool.and_eq_true, decide_eq_true_eq] at hm ⊢
    refine ⟨cellsWf_cellsSet v (Nat.zero_le _) (by omega) (cellsWf_mono (le_refl _) (Nat.le_max_left _ _) hm.1), ?_⟩
    have := addr.isLt
    have h2 : Config.memSizeMax = 2 ^ 32 := rfl
    omega

/-- The memory after reset has the canonical form. -/
theorem reset_mem_wf : State.reset.mem.wf = true := rfl

end Sys2Proof.Machine
end

