-- ==== Sys2Proof/Laws/State.lean ====
section
/-! SUPPORT. One lemma per field per update of the state, each true by rfl, so that no proof unfolds an update
(Machine/Ops.lean). -/

namespace Sys2Proof.Machine

/-! ### setA -/
section
variable (s : State) (v : Byte)
@[simp] theorem State.setA_a : (s.setA v).a = v := rfl
@[simp] theorem State.setA_b : (s.setA v).b = s.b := rfl
@[simp] theorem State.setA_c : (s.setA v).c = s.c := rfl
@[simp] theorem State.setA_d : (s.setA v).d = s.d := rfl
@[simp] theorem State.setA_e : (s.setA v).e = s.e := rfl
@[simp] theorem State.setA_f : (s.setA v).f = s.f := rfl
@[simp] theorem State.setA_la : (s.setA v).la = s.la := rfl
@[simp] theorem State.setA_lb : (s.setA v).lb = s.lb := rfl
@[simp] theorem State.setA_lc : (s.setA v).lc = s.lc := rfl
@[simp] theorem State.setA_ld : (s.setA v).ld = s.ld := rfl
@[simp] theorem State.setA_ptr : (s.setA v).ptr = s.ptr := rfl
@[simp] theorem State.setA_pc : (s.setA v).pc = s.pc := rfl
@[simp] theorem State.setA_mem : (s.setA v).mem = s.mem := rfl
@[simp] theorem State.setA_out : (s.setA v).out = s.out := rfl
@[simp] theorem State.setA_outCapacity : (s.setA v).outCapacity = s.outCapacity := rfl
@[simp] theorem State.setA_status : (s.setA v).status = s.status := rfl
@[simp] theorem State.setA_fault : (s.setA v).fault = s.fault := rfl
@[simp] theorem State.setA_pcAdv (k : Nat) : (s.setA v).pcAdv k = s.pcAdv k := rfl
@[simp] theorem ptrCAddr_setA : ptrCAddr (s.setA v) = ptrCAddr s := rfl
@[simp] theorem State.setA_outFull : (s.setA v).outFull = s.outFull := rfl
end

/-! ### setB -/
section
variable (s : State) (v : Byte)
@[simp] theorem State.setB_a : (s.setB v).a = s.a := rfl
@[simp] theorem State.setB_b : (s.setB v).b = v := rfl
@[simp] theorem State.setB_c : (s.setB v).c = s.c := rfl
@[simp] theorem State.setB_d : (s.setB v).d = s.d := rfl
@[simp] theorem State.setB_e : (s.setB v).e = s.e := rfl
@[simp] theorem State.setB_f : (s.setB v).f = s.f := rfl
@[simp] theorem State.setB_la : (s.setB v).la = s.la := rfl
@[simp] theorem State.setB_lb : (s.setB v).lb = s.lb := rfl
@[simp] theorem State.setB_lc : (s.setB v).lc = s.lc := rfl
@[simp] theorem State.setB_ld : (s.setB v).ld = s.ld := rfl
@[simp] theorem State.setB_ptr : (s.setB v).ptr = s.ptr := rfl
@[simp] theorem State.setB_pc : (s.setB v).pc = s.pc := rfl
@[simp] theorem State.setB_mem : (s.setB v).mem = s.mem := rfl
@[simp] theorem State.setB_out : (s.setB v).out = s.out := rfl
@[simp] theorem State.setB_outCapacity : (s.setB v).outCapacity = s.outCapacity := rfl
@[simp] theorem State.setB_status : (s.setB v).status = s.status := rfl
@[simp] theorem State.setB_fault : (s.setB v).fault = s.fault := rfl
@[simp] theorem State.setB_pcAdv (k : Nat) : (s.setB v).pcAdv k = s.pcAdv k := rfl
@[simp] theorem ptrCAddr_setB : ptrCAddr (s.setB v) = ptrCAddr s := rfl
@[simp] theorem State.setB_outFull : (s.setB v).outFull = s.outFull := rfl
end

/-! ### setC -/
section
variable (s : State) (v : Byte)
@[simp] theorem State.setC_a : (s.setC v).a = s.a := rfl
@[simp] theorem State.setC_b : (s.setC v).b = s.b := rfl
@[simp] theorem State.setC_c : (s.setC v).c = v := rfl
@[simp] theorem State.setC_d : (s.setC v).d = s.d := rfl
@[simp] theorem State.setC_e : (s.setC v).e = s.e := rfl
@[simp] theorem State.setC_f : (s.setC v).f = s.f := rfl
@[simp] theorem State.setC_la : (s.setC v).la = s.la := rfl
@[simp] theorem State.setC_lb : (s.setC v).lb = s.lb := rfl
@[simp] theorem State.setC_lc : (s.setC v).lc = s.lc := rfl
@[simp] theorem State.setC_ld : (s.setC v).ld = s.ld := rfl
@[simp] theorem State.setC_ptr : (s.setC v).ptr = s.ptr := rfl
@[simp] theorem State.setC_pc : (s.setC v).pc = s.pc := rfl
@[simp] theorem State.setC_mem : (s.setC v).mem = s.mem := rfl
@[simp] theorem State.setC_out : (s.setC v).out = s.out := rfl
@[simp] theorem State.setC_outCapacity : (s.setC v).outCapacity = s.outCapacity := rfl
@[simp] theorem State.setC_status : (s.setC v).status = s.status := rfl
@[simp] theorem State.setC_fault : (s.setC v).fault = s.fault := rfl
@[simp] theorem State.setC_pcAdv (k : Nat) : (s.setC v).pcAdv k = s.pcAdv k := rfl
@[simp] theorem State.setC_outFull : (s.setC v).outFull = s.outFull := rfl
end

/-! ### setD -/
section
variable (s : State) (v : Byte)
@[simp] theorem State.setD_a : (s.setD v).a = s.a := rfl
@[simp] theorem State.setD_b : (s.setD v).b = s.b := rfl
@[simp] theorem State.setD_c : (s.setD v).c = s.c := rfl
@[simp] theorem State.setD_d : (s.setD v).d = v := rfl
@[simp] theorem State.setD_e : (s.setD v).e = s.e := rfl
@[simp] theorem State.setD_f : (s.setD v).f = s.f := rfl
@[simp] theorem State.setD_la : (s.setD v).la = s.la := rfl
@[simp] theorem State.setD_lb : (s.setD v).lb = s.lb := rfl
@[simp] theorem State.setD_lc : (s.setD v).lc = s.lc := rfl
@[simp] theorem State.setD_ld : (s.setD v).ld = s.ld := rfl
@[simp] theorem State.setD_ptr : (s.setD v).ptr = s.ptr := rfl
@[simp] theorem State.setD_pc : (s.setD v).pc = s.pc := rfl
@[simp] theorem State.setD_mem : (s.setD v).mem = s.mem := rfl
@[simp] theorem State.setD_out : (s.setD v).out = s.out := rfl
@[simp] theorem State.setD_outCapacity : (s.setD v).outCapacity = s.outCapacity := rfl
@[simp] theorem State.setD_status : (s.setD v).status = s.status := rfl
@[simp] theorem State.setD_fault : (s.setD v).fault = s.fault := rfl
@[simp] theorem State.setD_pcAdv (k : Nat) : (s.setD v).pcAdv k = s.pcAdv k := rfl
@[simp] theorem ptrCAddr_setD : ptrCAddr (s.setD v) = ptrCAddr s := rfl
@[simp] theorem State.setD_outFull : (s.setD v).outFull = s.outFull := rfl
end

/-! ### setE -/
section
variable (s : State) (v : Byte)
@[simp] theorem State.setE_a : (s.setE v).a = s.a := rfl
@[simp] theorem State.setE_b : (s.setE v).b = s.b := rfl
@[simp] theorem State.setE_c : (s.setE v).c = s.c := rfl
@[simp] theorem State.setE_d : (s.setE v).d = s.d := rfl
@[simp] theorem State.setE_e : (s.setE v).e = v := rfl
@[simp] theorem State.setE_f : (s.setE v).f = s.f := rfl
@[simp] theorem State.setE_la : (s.setE v).la = s.la := rfl
@[simp] theorem State.setE_lb : (s.setE v).lb = s.lb := rfl
@[simp] theorem State.setE_lc : (s.setE v).lc = s.lc := rfl
@[simp] theorem State.setE_ld : (s.setE v).ld = s.ld := rfl
@[simp] theorem State.setE_ptr : (s.setE v).ptr = s.ptr := rfl
@[simp] theorem State.setE_pc : (s.setE v).pc = s.pc := rfl
@[simp] theorem State.setE_mem : (s.setE v).mem = s.mem := rfl
@[simp] theorem State.setE_out : (s.setE v).out = s.out := rfl
@[simp] theorem State.setE_outCapacity : (s.setE v).outCapacity = s.outCapacity := rfl
@[simp] theorem State.setE_status : (s.setE v).status = s.status := rfl
@[simp] theorem State.setE_fault : (s.setE v).fault = s.fault := rfl
@[simp] theorem State.setE_pcAdv (k : Nat) : (s.setE v).pcAdv k = s.pcAdv k := rfl
@[simp] theorem ptrCAddr_setE : ptrCAddr (s.setE v) = ptrCAddr s := rfl
@[simp] theorem State.setE_outFull : (s.setE v).outFull = s.outFull := rfl
end

/-! ### setF -/
section
variable (s : State) (v : Byte)
@[simp] theorem State.setF_a : (s.setF v).a = s.a := rfl
@[simp] theorem State.setF_b : (s.setF v).b = s.b := rfl
@[simp] theorem State.setF_c : (s.setF v).c = s.c := rfl
@[simp] theorem State.setF_d : (s.setF v).d = s.d := rfl
@[simp] theorem State.setF_e : (s.setF v).e = s.e := rfl
@[simp] theorem State.setF_f : (s.setF v).f = v := rfl
@[simp] theorem State.setF_la : (s.setF v).la = s.la := rfl
@[simp] theorem State.setF_lb : (s.setF v).lb = s.lb := rfl
@[simp] theorem State.setF_lc : (s.setF v).lc = s.lc := rfl
@[simp] theorem State.setF_ld : (s.setF v).ld = s.ld := rfl
@[simp] theorem State.setF_ptr : (s.setF v).ptr = s.ptr := rfl
@[simp] theorem State.setF_pc : (s.setF v).pc = s.pc := rfl
@[simp] theorem State.setF_mem : (s.setF v).mem = s.mem := rfl
@[simp] theorem State.setF_out : (s.setF v).out = s.out := rfl
@[simp] theorem State.setF_outCapacity : (s.setF v).outCapacity = s.outCapacity := rfl
@[simp] theorem State.setF_status : (s.setF v).status = s.status := rfl
@[simp] theorem State.setF_fault : (s.setF v).fault = s.fault := rfl
@[simp] theorem State.setF_pcAdv (k : Nat) : (s.setF v).pcAdv k = s.pcAdv k := rfl
@[simp] theorem ptrCAddr_setF : ptrCAddr (s.setF v) = ptrCAddr s := rfl
@[simp] theorem State.setF_outFull : (s.setF v).outFull = s.outFull := rfl
end

/-! ### setLa -/
section
variable (s : State) (v : Word)
@[simp] theorem State.setLa_a : (s.setLa v).a = s.a := rfl
@[simp] theorem State.setLa_b : (s.setLa v).b = s.b := rfl
@[simp] theorem State.setLa_c : (s.setLa v).c = s.c := rfl
@[simp] theorem State.setLa_d : (s.setLa v).d = s.d := rfl
@[simp] theorem State.setLa_e : (s.setLa v).e = s.e := rfl
@[simp] theorem State.setLa_f : (s.setLa v).f = s.f := rfl
@[simp] theorem State.setLa_la : (s.setLa v).la = v := rfl
@[simp] theorem State.setLa_lb : (s.setLa v).lb = s.lb := rfl
@[simp] theorem State.setLa_lc : (s.setLa v).lc = s.lc := rfl
@[simp] theorem State.setLa_ld : (s.setLa v).ld = s.ld := rfl
@[simp] theorem State.setLa_ptr : (s.setLa v).ptr = s.ptr := rfl
@[simp] theorem State.setLa_pc : (s.setLa v).pc = s.pc := rfl
@[simp] theorem State.setLa_mem : (s.setLa v).mem = s.mem := rfl
@[simp] theorem State.setLa_out : (s.setLa v).out = s.out := rfl
@[simp] theorem State.setLa_outCapacity : (s.setLa v).outCapacity = s.outCapacity := rfl
@[simp] theorem State.setLa_status : (s.setLa v).status = s.status := rfl
@[simp] theorem State.setLa_fault : (s.setLa v).fault = s.fault := rfl
@[simp] theorem State.setLa_pcAdv (k : Nat) : (s.setLa v).pcAdv k = s.pcAdv k := rfl
@[simp] theorem ptrCAddr_setLa : ptrCAddr (s.setLa v) = ptrCAddr s := rfl
@[simp] theorem State.setLa_outFull : (s.setLa v).outFull = s.outFull := rfl
end

/-! ### setLb -/
section
variable (s : State) (v : Word)
@[simp] theorem State.setLb_a : (s.setLb v).a = s.a := rfl
@[simp] theorem State.setLb_b : (s.setLb v).b = s.b := rfl
@[simp] theorem State.setLb_c : (s.setLb v).c = s.c := rfl
@[simp] theorem State.setLb_d : (s.setLb v).d = s.d := rfl
@[simp] theorem State.setLb_e : (s.setLb v).e = s.e := rfl
@[simp] theorem State.setLb_f : (s.setLb v).f = s.f := rfl
@[simp] theorem State.setLb_la : (s.setLb v).la = s.la := rfl
@[simp] theorem State.setLb_lb : (s.setLb v).lb = v := rfl
@[simp] theorem State.setLb_lc : (s.setLb v).lc = s.lc := rfl
@[simp] theorem State.setLb_ld : (s.setLb v).ld = s.ld := rfl
@[simp] theorem State.setLb_ptr : (s.setLb v).ptr = s.ptr := rfl
@[simp] theorem State.setLb_pc : (s.setLb v).pc = s.pc := rfl
@[simp] theorem State.setLb_mem : (s.setLb v).mem = s.mem := rfl
@[simp] theorem State.setLb_out : (s.setLb v).out = s.out := rfl
@[simp] theorem State.setLb_outCapacity : (s.setLb v).outCapacity = s.outCapacity := rfl
@[simp] theorem State.setLb_status : (s.setLb v).status = s.status := rfl
@[simp] theorem State.setLb_fault : (s.setLb v).fault = s.fault := rfl
@[simp] theorem State.setLb_pcAdv (k : Nat) : (s.setLb v).pcAdv k = s.pcAdv k := rfl
@[simp] theorem ptrCAddr_setLb : ptrCAddr (s.setLb v) = ptrCAddr s := rfl
@[simp] theorem State.setLb_outFull : (s.setLb v).outFull = s.outFull := rfl
end

/-! ### setLc -/
section
variable (s : State) (v : Word)
@[simp] theorem State.setLc_a : (s.setLc v).a = s.a := rfl
@[simp] theorem State.setLc_b : (s.setLc v).b = s.b := rfl
@[simp] theorem State.setLc_c : (s.setLc v).c = s.c := rfl
@[simp] theorem State.setLc_d : (s.setLc v).d = s.d := rfl
@[simp] theorem State.setLc_e : (s.setLc v).e = s.e := rfl
@[simp] theorem State.setLc_f : (s.setLc v).f = s.f := rfl
@[simp] theorem State.setLc_la : (s.setLc v).la = s.la := rfl
@[simp] theorem State.setLc_lb : (s.setLc v).lb = s.lb := rfl
@[simp] theorem State.setLc_lc : (s.setLc v).lc = v := rfl
@[simp] theorem State.setLc_ld : (s.setLc v).ld = s.ld := rfl
@[simp] theorem State.setLc_ptr : (s.setLc v).ptr = s.ptr := rfl
@[simp] theorem State.setLc_pc : (s.setLc v).pc = s.pc := rfl
@[simp] theorem State.setLc_mem : (s.setLc v).mem = s.mem := rfl
@[simp] theorem State.setLc_out : (s.setLc v).out = s.out := rfl
@[simp] theorem State.setLc_outCapacity : (s.setLc v).outCapacity = s.outCapacity := rfl
@[simp] theorem State.setLc_status : (s.setLc v).status = s.status := rfl
@[simp] theorem State.setLc_fault : (s.setLc v).fault = s.fault := rfl
@[simp] theorem State.setLc_pcAdv (k : Nat) : (s.setLc v).pcAdv k = s.pcAdv k := rfl
@[simp] theorem ptrCAddr_setLc : ptrCAddr (s.setLc v) = ptrCAddr s := rfl
@[simp] theorem State.setLc_outFull : (s.setLc v).outFull = s.outFull := rfl
end

/-! ### setLd -/
section
variable (s : State) (v : Word)
@[simp] theorem State.setLd_a : (s.setLd v).a = s.a := rfl
@[simp] theorem State.setLd_b : (s.setLd v).b = s.b := rfl
@[simp] theorem State.setLd_c : (s.setLd v).c = s.c := rfl
@[simp] theorem State.setLd_d : (s.setLd v).d = s.d := rfl
@[simp] theorem State.setLd_e : (s.setLd v).e = s.e := rfl
@[simp] theorem State.setLd_f : (s.setLd v).f = s.f := rfl
@[simp] theorem State.setLd_la : (s.setLd v).la = s.la := rfl
@[simp] theorem State.setLd_lb : (s.setLd v).lb = s.lb := rfl
@[simp] theorem State.setLd_lc : (s.setLd v).lc = s.lc := rfl
@[simp] theorem State.setLd_ld : (s.setLd v).ld = v := rfl
@[simp] theorem State.setLd_ptr : (s.setLd v).ptr = s.ptr := rfl
@[simp] theorem State.setLd_pc : (s.setLd v).pc = s.pc := rfl
@[simp] theorem State.setLd_mem : (s.setLd v).mem = s.mem := rfl
@[simp] theorem State.setLd_out : (s.setLd v).out = s.out := rfl
@[simp] theorem State.setLd_outCapacity : (s.setLd v).outCapacity = s.outCapacity := rfl
@[simp] theorem State.setLd_status : (s.setLd v).status = s.status := rfl
@[simp] theorem State.setLd_fault : (s.setLd v).fault = s.fault := rfl
@[simp] theorem State.setLd_pcAdv (k : Nat) : (s.setLd v).pcAdv k = s.pcAdv k := rfl
@[simp] theorem ptrCAddr_setLd : ptrCAddr (s.setLd v) = ptrCAddr s := rfl
@[simp] theorem State.setLd_outFull : (s.setLd v).outFull = s.outFull := rfl
end

/-! ### setPtr -/
section
variable (s : State) (v : Word)
@[simp] theorem State.setPtr_a : (s.setPtr v).a = s.a := rfl
@[simp] theorem State.setPtr_b : (s.setPtr v).b = s.b := rfl
@[simp] theorem State.setPtr_c : (s.setPtr v).c = s.c := rfl
@[simp] theorem State.setPtr_d : (s.setPtr v).d = s.d := rfl
@[simp] theorem State.setPtr_e : (s.setPtr v).e = s.e := rfl
@[simp] theorem State.setPtr_f : (s.setPtr v).f = s.f := rfl
@[simp] theorem State.setPtr_la : (s.setPtr v).la = s.la := rfl
@[simp] theorem State.setPtr_lb : (s.setPtr v).lb = s.lb := rfl
@[simp] theorem State.setPtr_lc : (s.setPtr v).lc = s.lc := rfl
@[simp] theorem State.setPtr_ld : (s.setPtr v).ld = s.ld := rfl
@[simp] theorem State.setPtr_ptr : (s.setPtr v).ptr = v := rfl
@[simp] theorem State.setPtr_pc : (s.setPtr v).pc = s.pc := rfl
@[simp] theorem State.setPtr_mem : (s.setPtr v).mem = s.mem := rfl
@[simp] theorem State.setPtr_out : (s.setPtr v).out = s.out := rfl
@[simp] theorem State.setPtr_outCapacity : (s.setPtr v).outCapacity = s.outCapacity := rfl
@[simp] theorem State.setPtr_status : (s.setPtr v).status = s.status := rfl
@[simp] theorem State.setPtr_fault : (s.setPtr v).fault = s.fault := rfl
@[simp] theorem State.setPtr_pcAdv (k : Nat) : (s.setPtr v).pcAdv k = s.pcAdv k := rfl
@[simp] theorem State.setPtr_outFull : (s.setPtr v).outFull = s.outFull := rfl
end

/-! ### setPc -/
section
variable (s : State) (v : Word)
@[simp] theorem State.setPc_a : (s.setPc v).a = s.a := rfl
@[simp] theorem State.setPc_b : (s.setPc v).b = s.b := rfl
@[simp] theorem State.setPc_c : (s.setPc v).c = s.c := rfl
@[simp] theorem State.setPc_d : (s.setPc v).d = s.d := rfl
@[simp] theorem State.setPc_e : (s.setPc v).e = s.e := rfl
@[simp] theorem State.setPc_f : (s.setPc v).f = s.f := rfl
@[simp] theorem State.setPc_la : (s.setPc v).la = s.la := rfl
@[simp] theorem State.setPc_lb : (s.setPc v).lb = s.lb := rfl
@[simp] theorem State.setPc_lc : (s.setPc v).lc = s.lc := rfl
@[simp] theorem State.setPc_ld : (s.setPc v).ld = s.ld := rfl
@[simp] theorem State.setPc_ptr : (s.setPc v).ptr = s.ptr := rfl
@[simp] theorem State.setPc_pc : (s.setPc v).pc = v := rfl
@[simp] theorem State.setPc_mem : (s.setPc v).mem = s.mem := rfl
@[simp] theorem State.setPc_out : (s.setPc v).out = s.out := rfl
@[simp] theorem State.setPc_outCapacity : (s.setPc v).outCapacity = s.outCapacity := rfl
@[simp] theorem State.setPc_status : (s.setPc v).status = s.status := rfl
@[simp] theorem State.setPc_fault : (s.setPc v).fault = s.fault := rfl
@[simp] theorem ptrCAddr_setPc : ptrCAddr (s.setPc v) = ptrCAddr s := rfl
@[simp] theorem State.setPc_outFull : (s.setPc v).outFull = s.outFull := rfl
end

/-! ### setMem -/
section
variable (s : State) (m : Memory)
@[simp] theorem State.setMem_a : (s.setMem m).a = s.a := rfl
@[simp] theorem State.setMem_b : (s.setMem m).b = s.b := rfl
@[simp] theorem State.setMem_c : (s.setMem m).c = s.c := rfl
@[simp] theorem State.setMem_d : (s.setMem m).d = s.d := rfl
@[simp] theorem State.setMem_e : (s.setMem m).e = s.e := rfl
@[simp] theorem State.setMem_f : (s.setMem m).f = s.f := rfl
@[simp] theorem State.setMem_la : (s.setMem m).la = s.la := rfl
@[simp] theorem State.setMem_lb : (s.setMem m).lb = s.lb := rfl
@[simp] theorem State.setMem_lc : (s.setMem m).lc = s.lc := rfl
@[simp] theorem State.setMem_ld : (s.setMem m).ld = s.ld := rfl
@[simp] theorem State.setMem_ptr : (s.setMem m).ptr = s.ptr := rfl
@[simp] theorem State.setMem_pc : (s.setMem m).pc = s.pc := rfl
@[simp] theorem State.setMem_mem : (s.setMem m).mem = m := rfl
@[simp] theorem State.setMem_out : (s.setMem m).out = s.out := rfl
@[simp] theorem State.setMem_outCapacity : (s.setMem m).outCapacity = s.outCapacity := rfl
@[simp] theorem State.setMem_status : (s.setMem m).status = s.status := rfl
@[simp] theorem State.setMem_fault : (s.setMem m).fault = s.fault := rfl
@[simp] theorem State.setMem_pcAdv (k : Nat) : (s.setMem m).pcAdv k = s.pcAdv k := rfl
@[simp] theorem ptrCAddr_setMem : ptrCAddr (s.setMem m) = ptrCAddr s := rfl
@[simp] theorem State.setMem_outFull : (s.setMem m).outFull = s.outFull := rfl
end

/-! ### pushOut -/
section
variable (s : State) (v : Byte)
@[simp] theorem State.pushOut_a : (s.pushOut v).a = s.a := rfl
@[simp] theorem State.pushOut_b : (s.pushOut v).b = s.b := rfl
@[simp] theorem State.pushOut_c : (s.pushOut v).c = s.c := rfl
@[simp] theorem State.pushOut_d : (s.pushOut v).d = s.d := rfl
@[simp] theorem State.pushOut_e : (s.pushOut v).e = s.e := rfl
@[simp] theorem State.pushOut_f : (s.pushOut v).f = s.f := rfl
@[simp] theorem State.pushOut_la : (s.pushOut v).la = s.la := rfl
@[simp] theorem State.pushOut_lb : (s.pushOut v).lb = s.lb := rfl
@[simp] theorem State.pushOut_lc : (s.pushOut v).lc = s.lc := rfl
@[simp] theorem State.pushOut_ld : (s.pushOut v).ld = s.ld := rfl
@[simp] theorem State.pushOut_ptr : (s.pushOut v).ptr = s.ptr := rfl
@[simp] theorem State.pushOut_pc : (s.pushOut v).pc = s.pc := rfl
@[simp] theorem State.pushOut_mem : (s.pushOut v).mem = s.mem := rfl
@[simp] theorem State.pushOut_out : (s.pushOut v).out = s.out ++ [v] := rfl
@[simp] theorem State.pushOut_outCapacity : (s.pushOut v).outCapacity = s.outCapacity := rfl
@[simp] theorem State.pushOut_status : (s.pushOut v).status = s.status := rfl
@[simp] theorem State.pushOut_fault : (s.pushOut v).fault = s.fault := rfl
@[simp] theorem State.pushOut_pcAdv (k : Nat) : (s.pushOut v).pcAdv k = s.pcAdv k := rfl
@[simp] theorem ptrCAddr_pushOut : ptrCAddr (s.pushOut v) = ptrCAddr s := rfl
end

/-! ### setStatus -/
section
variable (s : State) (st : RunStatus)
@[simp] theorem State.setStatus_a : (s.setStatus st).a = s.a := rfl
@[simp] theorem State.setStatus_b : (s.setStatus st).b = s.b := rfl
@[simp] theorem State.setStatus_c : (s.setStatus st).c = s.c := rfl
@[simp] theorem State.setStatus_d : (s.setStatus st).d = s.d := rfl
@[simp] theorem State.setStatus_e : (s.setStatus st).e = s.e := rfl
@[simp] theorem State.setStatus_f : (s.setStatus st).f = s.f := rfl
@[simp] theorem State.setStatus_la : (s.setStatus st).la = s.la := rfl
@[simp] theorem State.setStatus_lb : (s.setStatus st).lb = s.lb := rfl
@[simp] theorem State.setStatus_lc : (s.setStatus st).lc = s.lc := rfl
@[simp] theorem State.setStatus_ld : (s.setStatus st).ld = s.ld := rfl
@[simp] theorem State.setStatus_ptr : (s.setStatus st).ptr = s.ptr := rfl
@[simp] theorem State.setStatus_pc : (s.setStatus st).pc = s.pc := rfl
@[simp] theorem State.setStatus_mem : (s.setStatus st).mem = s.mem := rfl
@[simp] theorem State.setStatus_out : (s.setStatus st).out = s.out := rfl
@[simp] theorem State.setStatus_outCapacity : (s.setStatus st).outCapacity = s.outCapacity := rfl
@[simp] theorem State.setStatus_status : (s.setStatus st).status = st := rfl
@[simp] theorem State.setStatus_fault : (s.setStatus st).fault = s.fault := rfl
@[simp] theorem State.setStatus_pcAdv (k : Nat) : (s.setStatus st).pcAdv k = s.pcAdv k := rfl
@[simp] theorem ptrCAddr_setStatus : ptrCAddr (s.setStatus st) = ptrCAddr s := rfl
@[simp] theorem State.setStatus_outFull : (s.setStatus st).outFull = s.outFull := rfl
end

/-! ### takeAbort -/
section
variable (s : State) (r : Raise) (op : Option Byte)
@[simp] theorem State.takeAbort_a : (s.takeAbort r op).a = s.a := rfl
@[simp] theorem State.takeAbort_b : (s.takeAbort r op).b = s.b := rfl
@[simp] theorem State.takeAbort_c : (s.takeAbort r op).c = s.c := rfl
@[simp] theorem State.takeAbort_d : (s.takeAbort r op).d = s.d := rfl
@[simp] theorem State.takeAbort_e : (s.takeAbort r op).e = s.e := rfl
@[simp] theorem State.takeAbort_f : (s.takeAbort r op).f = s.f := rfl
@[simp] theorem State.takeAbort_la : (s.takeAbort r op).la = s.la := rfl
@[simp] theorem State.takeAbort_lb : (s.takeAbort r op).lb = s.lb := rfl
@[simp] theorem State.takeAbort_lc : (s.takeAbort r op).lc = s.lc := rfl
@[simp] theorem State.takeAbort_ld : (s.takeAbort r op).ld = s.ld := rfl
@[simp] theorem State.takeAbort_ptr : (s.takeAbort r op).ptr = s.ptr := rfl
@[simp] theorem State.takeAbort_pc : (s.takeAbort r op).pc = s.pc := rfl
@[simp] theorem State.takeAbort_mem : (s.takeAbort r op).mem = s.mem := rfl
@[simp] theorem State.takeAbort_out : (s.takeAbort r op).out = s.out := rfl
@[simp] theorem State.takeAbort_outCapacity : (s.takeAbort r op).outCapacity = s.outCapacity := rfl
@[simp] theorem State.takeAbort_status : (s.takeAbort r op).status = .aborted := rfl
@[simp] theorem State.takeAbort_fault : (s.takeAbort r op).fault =
    some { cause := r.cause, access := r.access, faultPc := s.pc, opcode := op, addr := r.addr } := rfl
@[simp] theorem State.takeAbort_pcAdv (k : Nat) : (s.takeAbort r op).pcAdv k = s.pcAdv k := rfl
@[simp] theorem ptrCAddr_takeAbort : ptrCAddr (s.takeAbort r op) = ptrCAddr s := rfl
@[simp] theorem State.takeAbort_outFull : (s.takeAbort r op).outFull = s.outFull := rfl
end

/-- The pc advance is a write of pc. -/
@[simp] theorem State.advance_eq (s : State) (k : Nat) : s.advance k = s.setPc (s.pcAdv k) := rfl

end Sys2Proof.Machine
end

