-- ==== Sys2Proof/Laws/Ops.lean ====
section
/-! SUPPORT. What each shared operation can do, said once: memory accesses, operand forms, the commit and the
abort (Machine/Ops.lean, Machine/Operands.lean). -/

namespace Sys2Proof.Machine

/-! ## Memory accesses -/

theorem memRead_ok {acc : Access} {s : State} {addr : Word} {v : Byte} :
    memRead acc s addr = .ok v ↔ s.mem.read addr.toNat = some v := by
  unfold memRead
  cases h : s.mem.read addr.toNat <;> simp

theorem memRead_error {acc : Access} {s : State} {addr : Word} {e : Raise} :
    memRead acc s addr = .error e ↔ s.mem.size ≤ addr.toNat ∧ e = Raise.outOfBounds acc addr := by
  unfold memRead
  cases h : s.mem.read addr.toNat with
  | none => simpa [Memory.read_eq_none.1 h] using eq_comm
  | some v => have := Memory.read_eq_some_lt h; simp; omega

theorem memWrite_ok {s s' : State} {addr : Word} {v : Byte} (h : memWrite s addr v = .ok s') :
    ∃ m, s.mem.write addr.toNat v = some m ∧ s' = s.setMem m := by
  unfold memWrite at h
  cases hm : s.mem.write addr.toNat v with
  | none => simp [hm] at h
  | some m => exact ⟨m, rfl, by simpa [hm, eq_comm] using h⟩

theorem memWrite_error {s : State} {addr : Word} {v : Byte} {e : Raise} :
    memWrite s addr v = .error e ↔ s.mem.size ≤ addr.toNat ∧ e = Raise.outOfBounds .dataWrite addr := by
  unfold memWrite
  cases h : s.mem.write addr.toNat v with
  | none => simpa [Memory.write_eq_none.1 h] using eq_comm
  | some m => have := (Memory.write_eq_some h).1; simp; omega

/-! ## Operand forms -/

/-- A read of an 8-bit operand raises only through ptr_c, and then DATA_READ at the ptr_c address. -/
theorem read8_error {s : State} {r : Reg8} {e : Raise} (h : read8 s r = .error e) :
    r = .ptrC ∧ s.mem.size ≤ (ptrCAddr s).toNat ∧ e = Raise.outOfBounds .dataRead (ptrCAddr s) := by
  cases r <;> simp only [read8, reduceCtorEq] at h
  exact ⟨rfl, memRead_error.1 h⟩

/-- A write of an 8-bit operand raises only through ptr_c, and then DATA_WRITE at the ptr_c address. -/
theorem write8_error {s : State} {r : Reg8} {v : Byte} {e : Raise} (h : write8 s r v = .error e) :
    r = .ptrC ∧ s.mem.size ≤ (ptrCAddr s).toNat ∧ e = Raise.outOfBounds .dataWrite (ptrCAddr s) := by
  cases r <;> simp only [write8, reduceCtorEq] at h
  exact ⟨rfl, memWrite_error.1 h⟩

/-- What a write of an 8-bit operand can do: one stored register, or the one byte at the ptr_c address. -/
theorem write8_ok {s s' : State} {r : Reg8} {v : Byte} (h : write8 s r v = .ok s') :
    (r = .a ∧ s' = s.setA v) ∨ (r = .b ∧ s' = s.setB v) ∨ (r = .c ∧ s' = s.setC v) ∨
    (r = .d ∧ s' = s.setD v) ∨ (r = .e ∧ s' = s.setE v) ∨ (r = .f ∧ s' = s.setF v) ∨
    (r = .ptrC ∧ ∃ m, s.mem.write (ptrCAddr s).toNat v = some m ∧ s' = s.setMem m) := by
  cases r <;> simp only [write8, Except.ok.injEq] at h
  case ptrC => simpa using memWrite_ok h
  all_goals subst h; simp

theorem store8_ok {s s' : State} {size : Nat} {r : Reg8} {v : Byte} (h : store8 s size r v = .ok s') :
    ∃ t, write8 s r v = .ok t ∧ s' = t.advance size := by
  unfold store8 at h
  cases hw : write8 s r v with
  | error e => simp [hw] at h
  | ok t => exact ⟨t, rfl, by simpa [hw, eq_comm] using h⟩

theorem store8_error {s : State} {size : Nat} {r : Reg8} {v : Byte} {e : Raise}
    (h : store8 s size r v = .error e) : write8 s r v = .error e := by
  unfold store8 at h
  cases hw : write8 s r v <;> simp [hw] at h
  rw [h]

/-- What a write of a 32-bit operand does: one register with the pc advanced, or pc alone. -/
theorem write32_cases (s : State) (size : Nat) (r : Reg32) (v : Word) :
    (r = .la ∧ write32 s size r v = (s.setLa v).setPc (s.pcAdv size)) ∨
    (r = .lb ∧ write32 s size r v = (s.setLb v).setPc (s.pcAdv size)) ∨
    (r = .lc ∧ write32 s size r v = (s.setLc v).setPc (s.pcAdv size)) ∨
    (r = .ld ∧ write32 s size r v = (s.setLd v).setPc (s.pcAdv size)) ∨
    (r = .ptr ∧ write32 s size r v = (s.setPtr v).setPc (s.pcAdv size)) ∨
    (r = .pc ∧ write32 s size r v = s.setPc v) := by
  cases r <;> simp [write32]

/-- What a branch does: it writes pc and nothing else. -/
theorem branchIf_eq (s : State) (size : Nat) (taken : Bool) (target : Word) :
    branchIf s size taken target = s.setPc (if taken then target else s.pcAdv size) := by
  cases taken <;> rfl

/-! ## The end of a step -/

/-- commitOrAbort always answers a next state: the committed one, or the abort of the state before. -/
theorem commitOrAbort_next {s t : State} {op : Byte} {r : Except Raise State} (h : commitOrAbort s op r = .next t) :
    (r = .ok t) ∨ ∃ e, r = .error e ∧ t = s.takeAbort e (some op) := by
  cases r with
  | ok s' => exact .inl (by simpa [commitOrAbort] using h)
  | error e => exact .inr ⟨e, rfl, by simpa [commitOrAbort, eq_comm] using h⟩

/-- The end of a step is always a next state. -/
theorem commitOrAbort_total (s : State) (op : Byte) (r : Except Raise State) : ∃ t, commitOrAbort s op r = .next t := by
  cases r <;> exact ⟨_, rfl⟩

/-- The output buffer is full exactly at its capacity. -/
theorem outFull_iff {s : State} : s.outFull = true ↔ s.outCapacity = some s.out.length := by
  unfold State.outFull
  cases s.outCapacity with
  | none => simp
  | some cap => simpa using eq_comm

end Sys2Proof.Machine
end

