-- ==== Sys2Proof/Laws/Exec.lean ====
section
/-! SUPPORT. What an instruction can do, said once: Ran s i t lists every next state exec can answer for i in s,
and exec_next says that it answers no other. A proof over all instructions takes the cases of Ran instead of
unfolding exec. -/

namespace Sys2Proof.Machine

/-- Every way an instruction leads from s to a next state: its effect with pc past it or at its target, or the
abort. -/
inductive Ran (s : State) : Instr → State → Prop where
  | halt : Ran s .halt ((s.setStatus .halted).setPc (s.pcAdv 1))
  | out (room : s.outFull = false) : Ran s .out ((s.pushOut s.a).setPc (s.pcAdv 1))
  | outFull (full : s.outFull = true) : Ran s .out (s.takeAbort Raise.outputOverflow (some 0x02))
  | cmp : Ran s .cmp ((s.setF (aluF s.a s.b)).setPc (s.pcAdv 1))
  | add : Ran s .add ((s.setA (s.a + s.b)).setPc (s.pcAdv 1))
  | sub : Ran s .sub ((s.setA (s.a - s.b)).setPc (s.pcAdv 1))
  | xor : Ran s .xor ((s.setA (s.a ^^^ s.b)).setPc (s.pcAdv 1))
  | aptr (imm8 : Byte) : Ran s (.aptr imm8) ((s.setPtr (s.ptr + imm8.setWidth 32)).setPc (s.pcAdv 2))
  | jez (imm32 : Word) : Ran s (.jez imm32) (s.setPc (if s.f = 0 then imm32 else s.pcAdv 5))
  | jnz (imm32 : Word) : Ran s (.jnz imm32) (s.setPc (if s.f = 0 then s.pcAdv 5 else imm32))
  | mv8 (dst src : Reg8) (v : Byte) (u : State) (hr : read8 s src = .ok v) (hw : write8 s dst v = .ok u) :
      Ran s (.mv8 dst src) (u.setPc (s.pcAdv 1))
  | mv8Read (dst : Reg8) (oob : s.mem.size ≤ (ptrCAddr s).toNat) :
      Ran s (.mv8 dst .ptrC)
        (s.takeAbort (Raise.outOfBounds .dataRead (ptrCAddr s)) (some (opcodeOf (.mv8 dst .ptrC))))
  | mv8Write (src : Reg8) (hs : src ≠ .ptrC) (oob : s.mem.size ≤ (ptrCAddr s).toNat) :
      Ran s (.mv8 .ptrC src)
        (s.takeAbort (Raise.outOfBounds .dataWrite (ptrCAddr s)) (some (opcodeOf (.mv8 .ptrC src))))
  | mvi8 (dst : Reg8) (imm8 : Byte) (u : State) (hw : write8 s dst imm8 = .ok u) :
      Ran s (.mvi8 dst imm8) (u.setPc (s.pcAdv 2))
  | mvi8Write (imm8 : Byte) (oob : s.mem.size ≤ (ptrCAddr s).toNat) :
      Ran s (.mvi8 .ptrC imm8)
        (s.takeAbort (Raise.outOfBounds .dataWrite (ptrCAddr s)) (some (opcodeOf (.mvi8 .ptrC imm8))))
  | mv32 (dst src : Reg32) : Ran s (.mv32 dst src) (write32 s 1 dst (read32 s 1 src))
  | mvi32 (dst : Reg32) (imm32 : Word) : Ran s (.mvi32 dst imm32) (write32 s 5 dst imm32)

/-- A write of an 8-bit operand leaves pc. -/
theorem write8_pcAdv {s u : State} {r : Reg8} {v : Byte} (h : write8 s r v = .ok u) (k : Nat) :
    u.pcAdv k = s.pcAdv k := by
  obtain ⟨-, rfl⟩ | ⟨-, rfl⟩ | ⟨-, rfl⟩ | ⟨-, rfl⟩ | ⟨-, rfl⟩ | ⟨-, rfl⟩ | ⟨-, m, -, rfl⟩ := write8_ok h <;> rfl

/-- The tail of MV8 and MVI8: the value goes to the destination, or its write raises. -/
theorem commit_store8 {s t : State} {op : Byte} {size : Nat} {r : Reg8} {v : Byte}
    (h : commitOrAbort s op (store8 s size r v) = .next t) :
    (∃ u, write8 s r v = .ok u ∧ t = u.setPc (s.pcAdv size)) ∨
    (r = .ptrC ∧ s.mem.size ≤ (ptrCAddr s).toNat ∧
      t = s.takeAbort (Raise.outOfBounds .dataWrite (ptrCAddr s)) (some op)) := by
  rcases commitOrAbort_next h with hs | ⟨e, hs, rfl⟩
  · obtain ⟨u, hu, rfl⟩ := store8_ok hs
    exact .inl ⟨u, hu, by rw [State.advance_eq, write8_pcAdv hu]⟩
  · obtain ⟨hr, ho, rfl⟩ := write8_error (store8_error hs)
    exact .inr ⟨hr, ho, rfl⟩

/-- Whatever exec answers as a next state is one of the cases of Ran. -/
theorem exec_next {i : Instr} {s t : State} (h : exec i s = .next t) : Ran s i t := by
  cases i with
  | halt => cases h; exact .halt
  | out =>
    cases hf : s.outFull with
    | false => simp only [exec, execOut, hf, commitOrAbort] at h; cases h; exact .out hf
    | true => simp only [exec, execOut, hf, commitOrAbort] at h; cases h; exact .outFull hf
  | cmp => cases h; exact .cmp
  | add => cases h; exact .add
  | sub => cases h; exact .sub
  | xor => cases h; exact .xor
  | aptr imm8 => cases h; exact .aptr imm8
  | jez imm32 =>
    simp only [exec, execJez, branchIf_eq, flagZero, beq_iff_eq] at h
    cases h; exact .jez imm32
  | jnz imm32 =>
    have e : (if (!flagZero s) = true then imm32 else s.pcAdv 5) = if s.f = 0 then s.pcAdv 5 else imm32 := by
      by_cases hf : s.f = 0 <;> simp [flagZero, hf]
    simp only [exec, execJnz, branchIf_eq, e] at h
    cases h; exact .jnz imm32
  | mv8 dst src =>
    simp only [exec, execMv8] at h
    cases hr : read8 s src with
    | ok v =>
      rw [hr] at h
      rcases commit_store8 h with ⟨u, hu, rfl⟩ | ⟨rfl, ho, rfl⟩
      · exact .mv8 dst src v u hr hu
      · refine .mv8Write src ?_ ho
        rintro rfl
        have := Memory.read_eq_some_lt (memRead_ok.1 hr)
        omega
    | error e =>
      rw [hr] at h
      obtain ⟨rfl, ho, rfl⟩ := read8_error hr
      cases h; exact .mv8Read dst ho
  | mvi8 dst imm8 =>
    rcases commit_store8 h with ⟨u, hu, rfl⟩ | ⟨rfl, ho, rfl⟩
    · exact .mvi8 dst imm8 u hu
    · exact .mvi8Write imm8 ho
  | mv32 dst src => cases h; exact .mv32 dst src
  | mvi32 dst imm32 => cases h; exact .mvi32 dst imm32

/-- exec never stops: every instruction answers a next state in every state. -/
theorem exec_total (i : Instr) (s : State) : ∃ t, exec i s = .next t := by
  cases i with
  | out => exact commitOrAbort_total s _ _
  | mv8 dst src => exact commitOrAbort_total s _ _
  | mvi8 dst imm8 => exact commitOrAbort_total s _ _
  | _ => exact ⟨_, rfl⟩

end Sys2Proof.Machine
end

