-- ==== Sys2Proof/Laws/Fetch.lean ====
section
/-! SUPPORT. What a fetch and a step can do, said once (Machine/Fetch.lean, Machine/Step.lean). -/

namespace Sys2Proof.Machine

/-- A run of immediate bytes is fetched exactly when each of them is there. -/
theorem fetchBytes_ok {s : State} {addr : Word} {n : Nat} {ib : List Byte} (h : fetchBytes s addr n = .ok ib) :
    ib.length = n ∧ ∀ k < n, s.mem.read (addr + BitVec.ofNat 32 k).toNat = ib[k]? := by
  induction n generalizing addr ib with
  | zero =>
    obtain rfl : [] = ib := by simpa [fetchBytes] using h
    simp
  | succ n ih =>
    simp only [fetchBytes] at h
    cases hv : memRead .fetchImmediate s addr with
    | error e => simp [hv] at h
    | ok v =>
      cases hr : fetchBytes s (addr + 1#32) n with
      | error e => simp [hv, hr] at h
      | ok rest =>
        simp only [hv, hr, Except.ok.injEq] at h
        subst h
        obtain ⟨hl, hb⟩ := ih hr
        refine ⟨by simp [hl], fun k hk => ?_⟩
        cases k with
        | zero => simpa using memRead_ok.1 hv
        | succ k =>
          have e : addr + BitVec.ofNat 32 (k + 1) = addr + 1#32 + BitVec.ofNat 32 k := by
            rw [BitVec.add_assoc, ← BitVec.ofNat_add, Nat.add_comm]
          rw [e, hb k (by omega)]
          simp

/-- A run of immediate bytes raises at the first one that is out of bounds. -/
theorem fetchBytes_error {s : State} {addr : Word} {n : Nat} {e : Raise} (h : fetchBytes s addr n = .error e) :
    ∃ k < n, s.mem.size ≤ (addr + BitVec.ofNat 32 k).toNat ∧
      (∀ j < k, (addr + BitVec.ofNat 32 j).toNat < s.mem.size) ∧
      e = Raise.outOfBounds .fetchImmediate (addr + BitVec.ofNat 32 k) := by
  induction n generalizing addr with
  | zero => simp [fetchBytes] at h
  | succ n ih =>
    simp only [fetchBytes] at h
    cases hv : memRead .fetchImmediate s addr with
    | error e' =>
      simp only [hv, Except.error.injEq] at h
      subst h
      obtain ⟨h1, h2⟩ := memRead_error.1 hv
      exact ⟨0, by omega, by simpa using h1, by simp, by simpa using h2⟩
    | ok v =>
      cases hr : fetchBytes s (addr + 1#32) n with
      | ok rest => simp [hv, hr] at h
      | error e' =>
        simp only [hv, hr, Except.error.injEq] at h
        subst h
        obtain ⟨k, hk, h1, h2, h3⟩ := ih hr
        have e1 : ∀ j, addr + BitVec.ofNat 32 (j + 1) = addr + 1#32 + BitVec.ofNat 32 j := fun j => by
          rw [BitVec.add_assoc, ← BitVec.ofNat_add, Nat.add_comm]
        refine ⟨k + 1, by omega, by rw [e1]; exact h1, fun j hj => ?_, by rw [e1]; exact h3⟩
        cases j with
        | zero => simpa using Memory.read_eq_some_lt (memRead_ok.1 hv)
        | succ j => rw [e1]; exact h2 j (by omega)

/-- What a fetch can answer: the instruction of the bytes at pc. -/
theorem fetch_ok {s : State} {i : Instr} (h : fetch s = .ok i) :
    ∃ op hd ib, s.mem.read s.pc.toNat = some op ∧ decodeOpcode op = some hd ∧
      fetchBytes s (s.pc + 1#32) hd.immBytes = .ok ib ∧ i = hd.withImmediates ib := by
  unfold fetch at h
  cases h1 : memRead .fetchOpcode s s.pc with
  | error e => simp [h1] at h
  | ok op =>
    cases h2 : decodeOpcode op with
    | none => simp [h1, h2] at h
    | some hd =>
      cases h3 : fetchBytes s (s.pc + 1#32) hd.immBytes with
      | error e => simp [h1, h2, h3] at h
      | ok ib =>
        refine ⟨op, hd, ib, memRead_ok.1 h1, h2, h3, ?_⟩
        simpa [h1, h2, h3, eq_comm] using h

/-- An instruction that was fetched has the byte at pc as its opcode. -/
theorem read_pc_of_fetch_ok {s : State} {i : Instr} (h : fetch s = .ok i) :
    s.mem.read s.pc.toNat = some (opcodeOf i) := by
  obtain ⟨op, hd, ib, h1, h2, -, rfl⟩ := fetch_ok h
  rw [h1, opcodeOf_of_decodeOpcode h2]

/-- What a fetch can raise: FETCH_OPCODE, an unrecognized opcode, or FETCH_IMMEDIATE, in that order (R102). -/
theorem fetch_error {s : State} {e : Raise} {op : Option Byte} (h : fetch s = .error (e, op)) :
    (s.mem.size ≤ s.pc.toNat ∧ e = Raise.outOfBounds .fetchOpcode s.pc ∧ op = none) ∨
    ∃ v, s.mem.read s.pc.toNat = some v ∧ op = some v ∧
      ((decodeOpcode v = none ∧ e = Raise.unrecognizedOpcode) ∨
       ∃ hd, decodeOpcode v = some hd ∧ fetchBytes s (s.pc + 1#32) hd.immBytes = .error e) := by
  unfold fetch at h
  cases h1 : memRead .fetchOpcode s s.pc with
  | error e' =>
    obtain ⟨h2, h3⟩ := memRead_error.1 h1
    simp only [h1, Except.error.injEq, Prod.mk.injEq] at h
    exact .inl ⟨h2, by rw [← h.1, h3], h.2.symm⟩
  | ok v =>
    refine .inr ⟨v, memRead_ok.1 h1, ?_⟩
    cases h2 : decodeOpcode v with
    | none =>
      simp only [h1, h2, Except.error.injEq, Prod.mk.injEq] at h
      exact ⟨h.2.symm, .inl ⟨rfl, h.1.symm⟩⟩
    | some hd =>
      cases h3 : fetchBytes s (s.pc + 1#32) hd.immBytes with
      | ok ib => simp [h1, h2, h3] at h
      | error e' =>
        simp only [h1, h2, h3, Except.error.injEq, Prod.mk.injEq] at h
        exact ⟨h.2.symm, .inr ⟨hd, rfl, by rw [h3, h.1]⟩⟩

/-- What a step that answers a next state can be: the run of the fetched instruction, or the abort of a fetch
that raised; and the machine was RUNNING. -/
theorem step_next {s t : State} (h : step s = .next t) :
    s.status = .running ∧
    ((∃ i, fetch s = .ok i ∧ exec i s = .next t) ∨
     ∃ e op, fetch s = .error (e, op) ∧ t = s.takeAbort e op) := by
  unfold step at h
  cases hs : s.status with
  | halted => simp [hs] at h
  | aborted => simp [hs] at h
  | running =>
    refine ⟨rfl, ?_⟩
    cases hf : fetch s with
    | ok i => exact .inl ⟨i, rfl, by simpa [hs, hf] using h⟩
    | error p =>
      obtain ⟨e, op⟩ := p
      exact .inr ⟨e, op, rfl, by simpa [hs, hf, eq_comm] using h⟩

end Sys2Proof.Machine
end

