-- ==== Sys2Proof/Laws/PerInstr.lean ====
section
/-! SUPPORT. Statements made per instruction. EncodingSize: an instruction's encoding is 1, 2 or 5 bytes long,
as long as the decoder says after its opcode byte alone (30_encoding.md R47). -/

/-- The opcode byte of i decodes, and to the length of i's encoding, which is 1, 2 or 5. -/
def Sys2Proof.Laws.EncodingSize.Statement (i : Sys2Proof.Instr) : Prop :=
  (Sys2Proof.decodeOpcode (Sys2Proof.opcodeOf i)).map Sys2Proof.Head.size = some (Sys2Proof.encode i).length ∧
    ((Sys2Proof.encode i).length = 1 ∨ (Sys2Proof.encode i).length = 2 ∨ (Sys2Proof.encode i).length = 5)

namespace Sys2Proof.Laws.EncodingSize

theorem halt : Statement .halt := ⟨by decide, .inl rfl⟩
theorem out : Statement .out := ⟨by decide, .inl rfl⟩
theorem cmp : Statement .cmp := ⟨by decide, .inl rfl⟩
theorem add : Statement .add := ⟨by decide, .inl rfl⟩
theorem sub : Statement .sub := ⟨by decide, .inl rfl⟩
theorem xor : Statement .xor := ⟨by decide, .inl rfl⟩
theorem aptr (imm8 : Byte) : Statement (.aptr imm8) := ⟨rfl, .inr (.inl rfl)⟩
theorem jez (imm32 : Word) : Statement (.jez imm32) := ⟨rfl, .inr (.inr rfl)⟩
theorem jnz (imm32 : Word) : Statement (.jnz imm32) := ⟨rfl, .inr (.inr rfl)⟩
theorem mv8 (dst src : Reg8) : Statement (.mv8 dst src) := ⟨by simp only [opcodeOf, decodeOpcode_mv8]; rfl, .inl rfl⟩
theorem mvi8 (dst : Reg8) (imm8 : Byte) : Statement (.mvi8 dst imm8) :=
  ⟨by simp only [opcodeOf, decodeOpcode_mvi8]; rfl, .inr (.inl rfl)⟩
theorem mv32 (dst src : Reg32) : Statement (.mv32 dst src) := ⟨by simp only [opcodeOf, decodeOpcode_mv32]; rfl, .inl rfl⟩
theorem mvi32 (dst : Reg32) (imm32 : Word) : Statement (.mvi32 dst imm32) :=
  ⟨by simp only [opcodeOf, decodeOpcode_mvi32]; rfl, .inr (.inr rfl)⟩

end Sys2Proof.Laws.EncodingSize
end

