-- ==== Sys2Proof/Laws/Units.lean ====
section
/-! SUPPORT. What the dispatcher and the read ports take from the fetch and decode unit, and which indices the write
ports are given (Machine/Units.lean). -/

namespace Sys2Proof.Machine

/-- When ifault is not NONE the dispatcher ignores every other output of the fetch and decode unit (R60). -/
theorem dispatcher_of_ifault (d : DispatchIn) (u : FetchDecodeOut) (h : d.fdu.ifault ≠ .none)
    (hu : u.ifault = d.fdu.ifault) : dispatcher { d with fdu := u } = dispatcher d := by
  unfold dispatcher
  rw [hu]
  split <;> first | contradiction | rfl

/-- And it asks nothing of the ALU then. -/
theorem aluRequest_of_ifault {u : FetchDecodeOut} (h : u.ifault ≠ .none) : aluRequest u = none := by
  unfold aluRequest
  split
  · contradiction
  · rfl
  · rfl
  · rfl

/-- A fetched instruction's outputs are those of a recognized opcode byte. -/
theorem fetchDecodeUnit_fetched {s : State} (h : (fetchDecodeUnit s).ifault = .none) :
    ∃ op hd, decodeOpcode op = some hd ∧ (fetchDecodeUnit s).kind = headKind hd ∧
      (fetchDecodeUnit s).dst = fieldD op ∧ (fetchDecodeUnit s).src = fieldS op := by
  revert h
  simp only [fetchDecodeUnit]
  split
  · simp
  · split
    · simp
    · rename_i hd hdec
      split
      · simp
      · exact fun _ => ⟨_, hd, hdec, rfl, rfl, rfl⟩

/-- Index 0 is never presented to the read port of the 8-bit file (R27). -/
theorem rs8Request_ne_zero (s : State) : rs8Request (fetchDecodeUnit s) ≠ some 0 := by
  have key : ∀ op : Byte, (decodeOpcode op).all (fun hd => headKind hd != .mv8 || fieldS op != 0) = true := by decide
  intro h
  unfold rs8Request at h
  split at h
  · rename_i hi hk
    obtain ⟨op, hd, hdec, h1, -, h3⟩ := fetchDecodeUnit_fetched hi
    have := key op
    simp_all
  · cases h

/-- Only the indices 1 to 6 are presented to the read port of the 32-bit file (R28). -/
theorem rs32Request_in_range {s : State} {i : BitVec 3} (h : rs32Request (fetchDecodeUnit s) = some i) :
    i ≠ 0 ∧ i ≠ 7 := by
  have key : ∀ op : Byte, (decodeOpcode op).all
      (fun hd => headKind hd != .mv32 || (fieldS op != 0 && fieldS op != 7)) = true := by decide
  unfold rs32Request at h
  split at h
  · rename_i hi hk
    obtain ⟨op, hd, hdec, h1, -, h3⟩ := fetchDecodeUnit_fetched hi
    have := key op
    simp_all
  · cases h

/-- The 8-bit destination mux: what it gives the two register files' ports. -/
@[simp] theorem controlWrite8_we8 (d : DispatchIn) (v : Byte) :
    (controlWrite8 d v).we8 = decide (d.fdu.dst ≠ 7) := by
  unfold controlWrite8; split <;> simp_all [controlIdle]

@[simp] theorem controlWrite8_wr8Idx (d : DispatchIn) (v : Byte) :
    (controlWrite8 d v).wr8Idx = if d.fdu.dst = 7 then 0 else d.fdu.dst := by
  unfold controlWrite8; split <;> rfl

@[simp] theorem controlWrite8_we32 (d : DispatchIn) (v : Byte) : (controlWrite8 d v).we32 = false := by
  unfold controlWrite8; split <;> rfl

/-- The 32-bit destination: what it gives the two register files' ports. -/
@[simp] theorem controlWrite32_we32 (d : DispatchIn) (v : Word) :
    (controlWrite32 d v).we32 = decide (d.fdu.dst ≠ 6) := by
  unfold controlWrite32; split <;> simp_all [controlIdle]

@[simp] theorem controlWrite32_wr32Idx (d : DispatchIn) (v : Word) :
    (controlWrite32 d v).wr32Idx = if d.fdu.dst = 6 then 0 else d.fdu.dst := by
  unfold controlWrite32; split <;> rfl

@[simp] theorem controlWrite32_we8 (d : DispatchIn) (v : Word) : (controlWrite32 d v).we8 = false := by
  unfold controlWrite32; split <;> rfl

/-- The enables and indices of a fetched instruction are those of its row of R69, whether or not it raises. -/
theorem dispatchKind_ports (d : DispatchIn) :
    (dispatchKind d).we8 = (routeKind d).we8 ∧ (dispatchKind d).wr8Idx = (routeKind d).wr8Idx ∧
    (dispatchKind d).we32 = (routeKind d).we32 ∧ (dispatchKind d).wr32Idx = (routeKind d).wr32Idx := by
  unfold dispatchKind
  split <;> exact ⟨rfl, rfl, rfl, rfl⟩

/-- A write port is enabled only for a fetched instruction, in its row of R69. -/
theorem dispatcher_enabled {d : DispatchIn} (h : (dispatcher d).we8 = true ∨ (dispatcher d).we32 = true) :
    d.fdu.ifault = .none ∧ dispatcher d = dispatchKind d := by
  unfold dispatcher at h ⊢
  split at h <;> simp_all [controlAbort, controlIdle]

/-- The write port of the 8-bit file is given the indices 1 to 6 alone (R27). -/
theorem dispatcher_wr8Idx_in_range {s : State} (h : (dispatcher (dispatchInOf s)).we8 = true) :
    (dispatcher (dispatchInOf s)).wr8Idx ≠ 0 ∧ (dispatcher (dispatchInOf s)).wr8Idx ≠ 7 := by
  have key : ∀ op : Byte, (decodeOpcode op).all
      (fun hd => (headKind hd != .mv8 && headKind hd != .mvi8) || fieldD op != 0) = true := by decide
  obtain ⟨hi, hd⟩ := dispatcher_enabled (.inl h)
  obtain ⟨op, hd', hdec, h1, h2, -⟩ := fetchDecodeUnit_fetched hi
  rw [hd] at h ⊢
  rw [(dispatchKind_ports _).1] at h
  rw [(dispatchKind_ports _).2.1]
  have hk := key op
  simp only [hdec, Option.all_some, ← h1, ← h2] at hk
  change (fetchDecodeUnit s).ifault = .none at hi
  have hf : (dispatchInOf s).fdu = fetchDecodeUnit s := rfl
  revert h
  unfold routeKind
  split <;> simp_all [controlIdle]

/-- The general write port of the 32-bit file is given the indices 1 to 5 alone (R28). -/
theorem dispatcher_wr32Idx_in_range {s : State} (h : (dispatcher (dispatchInOf s)).we32 = true) :
    (dispatcher (dispatchInOf s)).wr32Idx ≠ 0 ∧ (dispatcher (dispatchInOf s)).wr32Idx ≠ 6 ∧
    (dispatcher (dispatchInOf s)).wr32Idx ≠ 7 := by
  have key : ∀ op : Byte, (decodeOpcode op).all
      (fun hd => (headKind hd != .mv32 && headKind hd != .mvi32) || (fieldD op != 0 && fieldD op != 7)) = true := by
    decide
  obtain ⟨hi, hd⟩ := dispatcher_enabled (.inr h)
  obtain ⟨op, hd', hdec, h1, h2, -⟩ := fetchDecodeUnit_fetched hi
  rw [hd] at h ⊢
  rw [(dispatchKind_ports _).2.2.1] at h
  rw [(dispatchKind_ports _).2.2.2]
  have hk := key op
  simp only [hdec, Option.all_some, ← h1, ← h2] at hk
  change (fetchDecodeUnit s).ifault = .none at hi
  have hf : (dispatchInOf s).fdu = fetchDecodeUnit s := rfl
  revert h
  unfold routeKind
  split <;> simp_all [controlIdle]

end Sys2Proof.Machine
end

