-- ==== Sys2Proof/Tests/Slice0.lean ====
section
/-! SUPPORT. The model's own tests: the check on assembler lines, words written out from the encodings, single
steps with the results of spec/95_test_vectors.md, and for each statement with hypotheses states that meet them. -/

namespace Sys2Proof.Tests

open Sys2Proof.Machine Sys2Proof.Spec

/-- The state after the load of an image, with unbounded output. -/
def img (bytes : List Byte) : State := { State.reset with mem := Memory.ofImage bytes }

/-- What a projection shows of a next state; none for a fault or a refusal. -/
def view {α : Type} (o : Host.Outcome State Fault Refusal) (f : State → α) : Option α :=
  match o with
  | .next t => some (f t)
  | .fault _ => none
  | .refused _ => none

/-! ## WellFormed refuses each kind of ill-formed line (R63) -/

theorem test_wf_halt_takes_no_operand : wellFormed ⟨.HALT, [.r8 .a]⟩ = false := by decide
theorem test_wf_out_takes_a_only : wellFormed ⟨.OUT, [.r8 .b]⟩ = false := by decide
theorem test_wf_out_needs_its_operand : wellFormed ⟨.OUT, []⟩ = false := by decide
theorem test_wf_cmp_takes_no_operand : wellFormed ⟨.CMP, [.r8 .a, .r8 .b]⟩ = false := by decide
theorem test_wf_add_operands_are_fixed : wellFormed ⟨.ADD, [.r8 .a, .r8 .c]⟩ = false := by decide
theorem test_wf_sub_operands_are_fixed : wellFormed ⟨.SUB, [.r8 .b, .r8 .a]⟩ = false := by decide
theorem test_wf_xor_operands_are_fixed : wellFormed ⟨.XOR, [.r8 .a]⟩ = false := by decide
theorem test_wf_aptr_range : wellFormed ⟨.APTR, [.num 255]⟩ = true ∧ wellFormed ⟨.APTR, [.num 256]⟩ = false := by
  decide
theorem test_wf_jez_range :
    wellFormed ⟨.JEZ, [.num 0xFFFFFFFF]⟩ = true ∧ wellFormed ⟨.JEZ, [.num 0x100000000]⟩ = false := by decide
theorem test_wf_jnz_range : wellFormed ⟨.JNZ, [.num 0x100000000]⟩ = false := by decide
theorem test_wf_mv8_needs_8_bit_registers : wellFormed ⟨.MV8, [.r8 .a, .r32 .la]⟩ = false := by decide
theorem test_wf_mv_is_mv8 : wellFormed ⟨.MV, [.r32 .la, .r32 .lb]⟩ = false := by decide
theorem test_wf_mvi8_range : wellFormed ⟨.MVI8, [.r8 .ptrC, .num 256]⟩ = false := by decide
theorem test_wf_mvi_is_mvi8 : wellFormed ⟨.MVI, [.r32 .ptr, .num 1]⟩ = false := by decide
theorem test_wf_mv32_needs_32_bit_registers : wellFormed ⟨.MV32, [.r32 .pc, .r8 .ptrC]⟩ = false := by decide
theorem test_wf_mvi32_range : wellFormed ⟨.MVI32, [.r32 .pc, .num 0x100000000]⟩ = false := by decide
theorem test_assemble_refuses : assemble ⟨.OUT, [.r8 .b]⟩ = none := by decide

/-! ## Words written out from the encodings (R48, R49, R53, R54) -/

theorem test_decode_halt : decode [0x01] = .ok .halt [] := by decide
theorem test_decode_out : decode [0x02] = .ok .out [] := by decide
/-- 95_test_vectors.md V-S3 and R55: 0xC1 is CMP. -/
theorem test_decode_cmp : decode [0xC1, 0x01] = .ok .cmp [0x01] := by decide
theorem test_decode_add : decode [0xC2] = .ok .add [] := by decide
theorem test_decode_sub : decode [0xC3] = .ok .sub [] := by decide
theorem test_decode_xor : decode [0xC4] = .ok .xor [] := by decide
theorem test_decode_aptr : decode [0xE1, 0xFF] = .ok (.aptr 255) [] := by decide
/-- The example of R89: the target 0x3A. -/
theorem test_decode_jez : decode [0x21, 0x3A, 0, 0, 0] = .ok (.jez 0x3A) [] := by decide
/-- Little-endian, every byte of the target distinct. -/
theorem test_decode_jnz : decode [0x22, 0x1D, 0x2C, 0x3B, 0x4A, 0x01] = .ok (.jnz 0x4A3B2C1D) [0x01] := by decide
/-- 01 011 111: MV8 c <- ptr_c, the example of R92. -/
theorem test_decode_mv8 : decode [0b01011111] = .ok (.mv8 .c .ptrC) [] := by decide
/-- 01 111 011: MV8 ptr_c <- c. -/
theorem test_decode_mv8_fields : decode [0b01111011] = .ok (.mv8 .ptrC .c) [] := by decide
/-- 01 010 000: MVI8 b, the example of R93. -/
theorem test_decode_mvi8 : decode [0b01010000, 0x48] = .ok (.mvi8 .b 0x48) [] := by decide
/-- 10 101 010: MV32 ptr <- lb, the example of R94. -/
theorem test_decode_mv32 : decode [0b10101010] = .ok (.mv32 .ptr .lb) [] := by decide
/-- 10 110 001: MV32 pc <- la. -/
theorem test_decode_mv32_pc : decode [0b10110001] = .ok (.mv32 .pc .la) [] := by decide
/-- 10 101 000: MVI32 ptr, the example of R95. -/
theorem test_decode_mvi32 : decode [0b10101000, 0x4D, 0, 0, 0] = .ok (.mvi32 .ptr 0x4D) [] := by decide
/-- Register indices without a register, 0 and 7, are rejected by name (R61, R96). -/
theorem test_decode_rejects_index : decode [0x47, 1] = .reject (.unrecognized 0x47) ∧
    decode [0x8F] = .reject (.unrecognized 0x8F) ∧ decode [0xB8] = .reject (.unrecognized 0xB8) ∧
    decode [0x87] = .reject (.unrecognized 0x87) ∧ decode [0x40] = .reject (.unrecognized 0x40) := by decide
theorem test_decode_rejects_other :
    decode [] = .reject .noBytes ∧ decode [0x00, 0x01] = .reject (.unrecognized 0x00) ∧
    decode [0x21, 6, 0] = .reject (.truncated 0x21) := by decide
/-- The table's numbering: bit 0 is the least significant of the first byte; bytes above nbits are 0. -/
theorem test_decode_table_word :
    decodeTableWord 40 0x1234567888 = some (.mvi32 .la 0x12345678) ∧ decodeTableWord 8 0x21 = some (.jez 0) ∧
    decodeTableWord 8 0x00 = none := by decide
theorem test_encode_aptr : encode (.aptr 0x7F) = [0xE1, 0x7F] := by decide
theorem test_encode_mvi32 : encode (.mvi32 .la 0x12345678) = [0x88, 0x78, 0x56, 0x34, 0x12] := by decide
theorem test_withFetchWord_runs :
    view (step (State.reset.withFetchWord 40 0x1234567888)) (fun t => (t.la, t.pc)) = some (0x12345678, 5) := by
  decide

/-! ## Single steps (first steps of the vectors of spec/95_test_vectors.md) -/

/-- V-OH-1. -/
theorem test_step_halt : view (step (img [0x01])) (fun t => (t.status, t.pc, t.out)) = some (.halted, 1, []) := by
  decide
/-- V-OH-2. -/
theorem test_step_out :
    view (step { img [0x02, 0x01] with a := 0x48 }) (fun t => (t.out, t.pc, t.status)) =
      some ([0x48], 1, .running) := by decide
/-- V-OH-5, second step. -/
theorem test_step_out_full :
    view (step { img [0x02, 0x02, 0x01] with pc := 1, out := [0x41], outCapacity := some 1 })
        (fun t => (t.out, t.pc, t.status, t.fault)) =
      some ([0x41], 1, .aborted, some ⟨.outputOverflow, none, 1, some 0x02, none⟩) := by decide
/-- V-ALU-14. -/
theorem test_step_cmp_equal :
    view (step { img [0xC1, 0x01] with a := 2, b := 2, f := 0x80 }) (fun t => (t.a, t.b, t.f)) = some (2, 2, 0) := by
  decide
/-- V-ALU-16. -/
theorem test_step_cmp_unequal :
    view (step { img [0xC1, 0x01] with a := 3, b := 2 }) (fun t => (t.f, t.pc)) = some (1, 1) := by decide
/-- V-ALU-3. -/
theorem test_step_add_wraps :
    view (step { img [0xC2, 0x01] with a := 0xC8, b := 0x64 }) (fun t => (t.a, t.b, t.f)) =
      some (0x2C, 0x64, 0) := by decide
/-- V-ALU-5. -/
theorem test_step_add_keeps_f :
    view (step { img [0xC2, 0x01] with a := 5, f := 7 }) (fun t => (t.a, t.f)) = some (5, 7) := by decide
/-- V-ALU-9. -/
theorem test_step_sub_wraps :
    view (step { img [0xC3, 0x01] with b := 0xFF }) (fun t => (t.a, t.b)) = some (1, 0xFF) := by decide
/-- V-ALU-7. -/
theorem test_step_sub : view (step { img [0xC3, 0x01] with a := 5, b := 3 }) (fun t => t.a) = some 2 := by decide
/-- V-ALU-11. -/
theorem test_step_xor :
    view (step { img [0xC4, 0x01] with a := 0x65, b := 9 }) (fun t => (t.a, t.b)) = some (0x6C, 9) := by decide
/-- V-AP-3. -/
theorem test_step_aptr_unsigned :
    view (step { img [0xE1, 0xFF, 0x01] with ptr := 0x10 }) (fun t => (t.ptr, t.pc)) = some (0x10F, 2) := by decide
/-- V-AP-2. -/
theorem test_step_aptr_wraps :
    view (step { img [0xE1, 0x01, 0x01] with ptr := 0xFFFFFFFF }) (fun t => t.ptr) = some 0 := by decide
/-- V-BR-1. -/
theorem test_step_jez_taken : view (step (img [0x21, 6, 0, 0, 0, 0, 1])) (fun t => t.pc) = some 6 := by decide
/-- V-BR-3. -/
theorem test_step_jez_not_taken :
    view (step { img [0x21, 6, 0, 0, 0, 0, 1] with f := 2 }) (fun t => (t.pc, t.f)) = some (5, 2) := by decide
/-- V-BR-4. -/
theorem test_step_jnz_taken :
    view (step { img [0x22, 6, 0, 0, 0, 0, 1] with f := 2 }) (fun t => (t.pc, t.f)) = some (6, 2) := by decide
/-- V-BR-5. -/
theorem test_step_jnz_not_taken : view (step (img [0x22, 6, 0, 0, 0, 0, 1])) (fun t => t.pc) = some 5 := by decide
/-- V-MV-7: the read uses the old c. -/
theorem test_step_mv8_old_c :
    view (step { img [0x5F, 1, 0, 9] with ptr := 1, c := 2 }) (fun t => (t.c, t.pc)) = some (9, 1) := by decide
/-- V-MV-8: c is stored at ptr + c. -/
theorem test_step_mv8_store :
    view (step { img [0x7B, 1, 0, 0] with c := 3 }) (fun t => (t.mem.read 3, t.mem.read 2, t.mem.read 4)) =
      some (some 3, some 0, none) := by decide
/-- V-MV-13. -/
theorem test_step_mvi8_store :
    view (step { img [0x78, 0x5A, 1, 0] with ptr := 3 }) (fun t => (t.mem.read 3, t.pc)) =
      some (some 0x5A, 2) := by decide
/-- V-MV-12. -/
theorem test_step_mvi8_f : view (step { img [0x70, 7, 1] with f := 1 }) (fun t => t.f) = some 7 := by decide
/-- V-MV-17. -/
theorem test_step_mv32_reads_advanced_pc :
    view (step (img [0x8E, 1])) (fun t => (t.la, t.pc)) = some (1, 1) := by decide
/-- V-MV-19. -/
theorem test_step_mv32_jumps :
    view (step { img [0xB1, 0, 0, 1] with la := 3 }) (fun t => (t.pc, t.la)) = some (3, 3) := by decide
/-- V-MV-21. -/
theorem test_step_mvi32 :
    view (step (img [0x88, 0x78, 0x56, 0x34, 0x12, 1])) (fun t => (t.la, t.pc)) = some (0x12345678, 5) := by decide
/-- V-MV-23. -/
theorem test_step_mvi32_jumps : view (step (img [0xB0, 6, 0, 0, 0, 0, 1])) (fun t => t.pc) = some 6 := by decide

/-- The units agree with the step on V-MV-9 (a data read out of bounds). -/
theorem test_units_mv8_out_of_bounds :
    view (unitStep { img [0x4F, 1] with a := 0x44, ptr := 0x100 }) (fun t => (t.a, t.fault)) =
      some (0x44, some ⟨.outOfBounds, some .dataRead, 0, some 0x4F, some 0x100⟩) := by decide
/-- R64: an unrecognized byte is listed as data. -/
theorem test_disassemble :
    disassemble 3 [0x4F, 0x00, 0x50, 0x48] =
      ["MV8 a <- ptr_c".toList, ".byte 0x00".toList, "MVI8 b <- 0x48".toList] := by decide

/-- R63: decimal and hexadecimal immediates, the alias MV, a range and a fixed operand refused. -/
theorem test_assemble_text :
    assembleText "MVI8 ptr_c <- 90".toList = some (.mvi8 .ptrC 0x5A) ∧
    assembleText "MVI c <- 3".toList = some (.mvi8 .c 3) ∧
    assembleText "JEZ 0x3a".toList = some (.jez 0x3A) ∧ assembleText "MV a <- b".toList = some (.mv8 .a .b) ∧
    assembleText "APTR 256".toList = none ∧ assembleText "ADD a <- c".toList = none := by decide

/-! ## Witnesses: states that meet the hypotheses of the statements -/

/-- Ten bytes, ptr + c being the last of them. -/
def atEnd : State := { img [0x4F, 0x79, 0x78, 0x02, 5, 6, 7, 8, 9, 0x0A] with a := 0x11, ptr := 4, c := 5 }

/-- As atEnd, ptr + c being the first address beyond them. -/
def pastEnd : State := { atEnd with c := 6 }

/-- A memory of 2^32 bytes, with an instruction that wraps at its end. -/
def wrapping (op : Byte) : State :=
  { State.reset with
    pc := 0xFFFFFFFE
    mem := { cells := [(0, 3), (1, 4), (2, 5), (4294967294, op), (4294967295, 2)], size := 4294967296 } }

theorem witness_OutAppendsTheAccumulator :
    (img []).outCapacity ≠ some (img []).out.length ∧
    ({ img [] with outCapacity := some 2, out := [7] } : State).outCapacity ≠ some 1 := by decide

theorem witness_OutOnAFullBufferAborts :
    ({ img [] with outCapacity := some 0 } : State).outCapacity = some (img []).out.length ∧
    ({ img [] with outCapacity := some 1, out := [7] } : State).outCapacity = some [7].length := by decide

theorem witness_OnlyOutWritesTheOutputBuffer :
    (∃ t, exec .out (img []) = .next t ∧ t.out = [0]) ∧
    (∃ t, exec .out { img [] with outCapacity := some 0 } = .next t ∧ t.out = []) ∧
    ∃ t, exec .add (img []) = .next t := ⟨⟨_, rfl, rfl⟩, ⟨_, rfl, rfl⟩, _, rfl⟩

theorem witness_FlagRegisterIsWrittenOnlyByCmpAndMoves :
    (∃ t, exec .cmp atEnd = .next t ∧ t.f = 1) ∧ (∃ t, exec (.mvi8 .f 0xFF) atEnd = .next t ∧ t.f = 0xFF) ∧
    (∃ t, exec (.mv8 .f .ptrC) atEnd = .next t ∧ source8 atEnd .ptrC = some 0x0A ∧ t.f = 0x0A) ∧
    (∃ t, exec .add { atEnd with f := 9 } = .next t ∧ writes8 .add .f = false ∧ t.f = 9) ∧
    (∃ t, exec (.jez 3) atEnd = .next t ∧ t.pc = 3) ∧ ∃ t, exec (.jnz 3) { atEnd with f := 9 } = .next t ∧ t.pc = 3 :=
  ⟨⟨_, rfl, rfl⟩, ⟨_, rfl, rfl⟩, ⟨_, rfl, by decide, by decide⟩, ⟨_, rfl, by decide, rfl⟩, ⟨_, rfl, rfl⟩, _, rfl, rfl⟩

theorem witness_JumpToItselfNeverEnds :
    (img [0x21, 0, 0, 0, 0]).status = .running ∧ (img [0x21, 0, 0, 0, 0]).f = 0 ∧
    bytesAtPc (img [0x21, 0, 0, 0, 0]) (0x21 :: leBytes (img [0x21, 0, 0, 0, 0]).pc) := by
  unfold bytesAtPc; decide

theorem witness_NextPcIsSelectedAsListed :
    (∃ t, atEnd.status = .running ∧ exec .halt atEnd = .next t ∧ t.status ≠ .aborted) ∧
    ∃ t, pastEnd.status = .running ∧ exec (.mv8 .a .ptrC) pastEnd = .next t ∧ t.status = .aborted :=
  ⟨⟨_, rfl, rfl, by decide⟩, _, rfl, rfl, rfl⟩

/-- The last backed address: reads and writes; the first beyond it: both exceptions. -/
theorem witness_Mv8CopiesSourceToDestination :
    source8 atEnd .ptrC = some 0x0A ∧ (ptrCAddr atEnd).toNat < atEnd.mem.size ∧
    (ptrCAddr atEnd).toNat + 1 = atEnd.mem.size ∧ source8 pastEnd .a = some 0x11 ∧
    pastEnd.mem.size ≤ (ptrCAddr pastEnd).toNat ∧ (ptrCAddr pastEnd).toNat = pastEnd.mem.size := by decide

theorem witness_Mvi8StoresTheImmediate :
    (ptrCAddr atEnd).toNat < atEnd.mem.size ∧ pastEnd.mem.size ≤ (ptrCAddr pastEnd).toNat ∧
    (img [0x78]).status = .running ∧
    (img [0x78]).mem.read (img [0x78]).pc.toNat = some (BitVec.ofNat 8 (64 + 8 * num8 .ptrC)) ∧
    (img [0x78]).mem.size ≤ (nextPc (img [0x78]) 1).toNat := by decide

theorem witness_Mv32CopiesSourceToDestination :
    source32 atEnd .pc = 1 ∧ source32 { atEnd with pc := 0xFFFFFFFF } .pc = 0 ∧ x32 atEnd .ptr = some 4 := by decide

/-- The first and the last of the four immediate bytes missing. -/
theorem witness_Mvi32StoresTheImmediate :
    (img [0xB0]).mem.read 0 = some (BitVec.ofNat 8 (128 + 8 * num32 .pc)) ∧
    (img [0xB0]).mem.size ≤ (nextPc (img [0xB0]) 1).toNat ∧
    (img [0x88, 1, 2, 3]).mem.read 0 = some (BitVec.ofNat 8 (128 + 8 * num32 .la)) ∧
    (img [0x88, 1, 2, 3]).mem.size ≤ (nextPc (img [0x88, 1, 2, 3]) 4).toNat := by decide

theorem witness_RegistersChangeOnlyAsListed :
    (∃ t, exec .cmp atEnd = .next t ∧ writes8 .cmp .a = false ∧ writes8 .cmp .f = true) ∧
    ∃ t, exec (.aptr 1) atEnd = .next t ∧ writes32 (.aptr 1) .la = false ∧ writes32 (.aptr 1) .ptr = true :=
  ⟨⟨_, rfl, rfl, rfl⟩, _, rfl, rfl, rfl⟩

theorem witness_OnlyPtrCMovesWriteMemory :
    (∃ t, exec (.mv8 .ptrC .a) atEnd = .next t ∧ t.mem.read 9 = some 0x11 ∧ atEnd.mem.read 9 = some 0x0A) ∧
    ∃ t, exec (.mv8 .a .ptrC) atEnd = .next t ∧ stores (.mv8 .a .ptrC) = false :=
  ⟨⟨_, rfl, by decide, by decide⟩, _, rfl, rfl⟩

/-- The last backed address, the first beyond it, and a sum that wraps to 1. -/
theorem witness_PtrCIsTheByteAtPtrPlusC :
    atEnd.mem.read ((atEnd.ptr.toNat + atEnd.c.toNat) % 2 ^ 32) = some 0x0A ∧
    pastEnd.mem.size ≤ (pastEnd.ptr.toNat + pastEnd.c.toNat) % 2 ^ 32 ∧
    ((0xFFFFFFFF : Word).toNat + (2 : Byte).toNat) % 2 ^ 32 < atEnd.mem.size := by decide

theorem witness_MemoryAccessesAreBoundsChecked :
    (9 : Word).toNat < atEnd.mem.size ∧ atEnd.mem.size ≤ (10 : Word).toNat := by decide

/-- An opcode and two more bytes, ptr + c being the last of them, where MVI8 leaves pc. -/
def storing (first : Byte) : State := { img [first, 0x47, 0x00] with ptr := 1, c := 1, a := 0x22 }

/-- The next opcode is overwritten by MVI8: with HALT, and with an unrecognized byte. -/
theorem witness_NextFetchSeesTheStoredByte :
    (∃ t, storesByte (.mvi8 .ptrC 0x01) (storing 0x78) 0x01 ∧ exec (.mvi8 .ptrC 0x01) (storing 0x78) = .next t ∧
      t.status = .running ∧ t.pc = ptrCAddr (storing 0x78) ∧ fetch t = .ok .halt ∧ encode .halt = [0x01]) ∧
    ∃ t, storesByte (.mvi8 .ptrC 0x47) (storing 0x78) 0x47 ∧ exec (.mvi8 .ptrC 0x47) (storing 0x78) = .next t ∧
      t.status = .running ∧ t.pc = ptrCAddr (storing 0x78) ∧ unrecognized (0x47 : Byte).toNat = true :=
  ⟨⟨_, .inl rfl, rfl, rfl, by decide, rfl, rfl⟩, _, .inl rfl, rfl, rfl, by decide, by decide⟩

/-- The next opcode is overwritten by MV8 ptr_c <- a with JNZ's, whose target is not in memory: the fetch raises. -/
theorem witness_NextFetchSeesTheStoredByte_mv8 :
    ∃ t, storesByte (.mv8 .ptrC .a) { storing 0x79 with c := 0 } 0x22 ∧
      exec (.mv8 .ptrC .a) { storing 0x79 with c := 0 } = .next t ∧ t.status = .running ∧
      t.pc = ptrCAddr { storing 0x79 with c := 0 } ∧
      fetch t = .error (Raise.outOfBounds .fetchImmediate 3, some 0x22) :=
  ⟨_, .inr ⟨.a, rfl, rfl⟩, rfl, rfl, by decide, rfl⟩

theorem witness_OverwritingOwnOpcodeStillCompletes :
    (img [0x79, 0x01]).status = .running ∧ (img [0x79, 0x01]).mem.read (img [0x79, 0x01]).pc.toNat = some 0x79 ∧
    ptrCAddr (img [0x79, 0x01]) = (img [0x79, 0x01]).pc := by decide

/-- MVI8 over its immediate (V-MV-25) and over its opcode, and MV8 ptr_c <- ptr_c over its opcode. -/
theorem witness_SelfOverwritingStoreUsesTheFetchedBytes :
    (bytesAtPc { img [0x78, 0x5A, 0x01] with ptr := 1 } (encode (.mvi8 .ptrC 0x5A)) ∧
      ptrCAddr { img [0x78, 0x5A, 0x01] with ptr := 1 } = nextPc { img [0x78, 0x5A, 0x01] with ptr := 1 } 1) ∧
    ptrCAddr (img [0x78, 0x5A]) = nextPc (img [0x78, 0x5A]) 0 ∧
    bytesAtPc (img [0x7F]) (encode (.mv8 .ptrC .ptrC)) ∧ source8 (img [0x7F]) .ptrC = some 0x7F ∧
    ptrCAddr (img [0x7F]) = nextPc (img [0x7F]) 0 := by
  unfold bytesAtPc; decide

theorem witness_EncodeInvertsDecode : decode [0xE1, 0xFF, 0x02] = .ok (.aptr 0xFF) [0x02] := by decide

/-- Each of the three kinds of five-byte instruction, one of them wrapping at the top of the address space. -/
theorem witness_FetchAssemblesLittleEndian :
    bytesAtPc (img [0x21, 2, 3, 4, 5]) [0x21, 2, 3, 4, 5] ∧ bytesAtPc (wrapping 0x22) [0x22, 2, 3, 4, 5] ∧
    bytesAtPc (wrapping 0xB0) [BitVec.ofNat 8 (128 + 8 * num32 .pc), 2, 3, 4, 5] := by
  unfold bytesAtPc; decide

theorem witness_StepRunsTheDecodedInstruction :
    atEnd.status = .running ∧ bytesAtPc atEnd [0x4F, 0x79] ∧ decode [0x4F, 0x79] = .ok (.mv8 .a .ptrC) [0x79] := by
  unfold bytesAtPc; decide

theorem witness_PlacedWordIsTheNextInstruction :
    decodeTableWord 16 0xFFE1 = some (.aptr 0xFF) ∧ decodeTableWord 40 0xFFFFFFFFB0 = some (.mvi32 .pc 0xFFFFFFFF) := by
  decide

/-- The empty image, and pc just past the last byte. -/
theorem witness_FetchBeyondMemoryAborts :
    State.reset.status = .running ∧ State.reset.mem.size ≤ State.reset.pc.toNat ∧
    ({ atEnd with pc := 10 } : State).mem.size ≤ ({ atEnd with pc := 10 } : State).pc.toNat := by decide

theorem witness_UnrecognizedOpcodeAborts :
    (img [0x00, 0x01]).status = .running ∧ (img [0x00, 0x01]).mem.read (img [0x00, 0x01]).pc.toNat = some 0x00 ∧
    unrecognized (0x00 : Byte).toNat = true ∧ unrecognized (0xFF : Byte).toNat = true := by decide

/-- V-BR-6 (the third immediate byte missing) and the first and the last byte missing. -/
theorem witness_TruncatedInstructionAborts :
    (img [0x21, 6, 0]).status = .running ∧ (img [0x21, 6, 0]).mem.read 0 = some (opcodeOf (.jez 0)) ∧
    (1 ≤ 3 ∧ 3 < (encode (.jez 0)).length) ∧ (img [0x21, 6, 0]).mem.size ≤ (nextPc (img [0x21, 6, 0]) 3).toNat ∧
    (∀ j, 1 ≤ j → j < 3 → (nextPc (img [0x21, 6, 0]) j).toNat < (img [0x21, 6, 0]).mem.size) ∧
    (img [0x48]).mem.size ≤ (nextPc (img [0x48]) 1).toNat ∧
    (∀ j, 1 ≤ j → j < 4 → (nextPc (img [0x88, 1, 2, 3]) j).toNat < (img [0x88, 1, 2, 3]).mem.size) := by
  refine ⟨by decide, by decide, by decide, by decide, ?_, by decide, ?_⟩ <;>
    · intro j h1 h2; interval_cases j <;> decide

theorem witness_DataReadOutOfBoundsAborts :
    pastEnd.mem.size ≤ (ptrCAddr pastEnd).toNat ∧
    State.reset.mem.size ≤ (ptrCAddr State.reset).toNat := by decide

theorem witness_DataWriteOutOfBoundsAborts :
    pastEnd.mem.size ≤ (ptrCAddr pastEnd).toNat ∧ Reg8.f ≠ Reg8.ptrC := by decide

theorem witness_AbortingStepCommitsNothing : ∃ t, step pastEnd = .next t ∧ t.status = .aborted :=
  ⟨_, rfl, rfl⟩

theorem witness_OnlyListedInstructionsAbort :
    (∃ t, exec .out { img [] with outCapacity := some 0 } = .next t ∧ t.status = .aborted) ∧
    (∃ t, exec (.mv8 .b .ptrC) pastEnd = .next t ∧ t.status = .aborted) ∧
    (∃ t, exec (.mv8 .ptrC .b) pastEnd = .next t ∧ t.status = .aborted) ∧
    ∃ t, exec (.mvi8 .ptrC 0) pastEnd = .next t ∧ t.status = .aborted :=
  ⟨⟨_, rfl, rfl⟩, ⟨_, rfl, rfl⟩, ⟨_, rfl, rfl⟩, _, rfl, rfl⟩

theorem witness_NoStepAfterTheRunEnds :
    ({ atEnd with status := .halted } : State).status ≠ .running ∧
    ({ atEnd with status := .aborted } : State).status ≠ .running := by decide

theorem witness_StatusChangesOnlyByHaltOrFault :
    (∃ t, step (img [0x01]) = .next t ∧ t.status = .halted) ∧ (∃ t, step (img [0x00]) = .next t ∧ t.status = .aborted) ∧
    ∃ t, step (img [0xC2]) = .next t ∧ t.status = .running := ⟨⟨_, rfl, rfl⟩, ⟨_, rfl, rfl⟩, _, rfl, rfl⟩

theorem witness_HostSeesOutputOnlyAfterHalt :
    ({ atEnd with status := .halted } : State).status = .halted ∧
    ({ atEnd with status := .aborted } : State).status = .aborted ∧ atEnd.status = .running := by decide

/-- A run that goes on, one that ends within its budget, and one that had ended. -/
theorem witness_BudgetEndsNoRun :
    (img [0xC2, 0x01]).status = .running ∧ (runBudget 1 (img [0xC2, 0x01])).status = .running ∧
    (runBudget 2 (img [0xC2, 0x01])).status = .halted ∧ (runBudget 3 (img [0xC2, 0x01])).status = .halted ∧
    ({ atEnd with status := .halted } : State).status ≠ .running := by decide

/-- No byte, and 2^32 bytes. -/
theorem witness_LoadSetsEveryElement :
    ([] : List Byte).length ≤ 2 ^ 32 ∧ (List.replicate (2 ^ 32) (0x01 : Byte)).length ≤ 2 ^ 32 :=
  ⟨Nat.zero_le _, le_of_eq List.length_replicate⟩

theorem witness_LoadRefusesTooLongImages : 2 ^ 32 < (List.replicate (2 ^ 32 + 1) (0x01 : Byte)).length := by
  rw [List.length_replicate]; exact Nat.lt_succ_self _

theorem witness_InvariantHoldsAfterLoad : ∃ t, load [0x02, 0x00, 0x01] (some 1) = .next t := ⟨_, rfl⟩

/-- The premise at a state whose step aborts, so that the record is new. -/
theorem witness_EveryStepKeepsTheInvariant : pastEnd.Inv ∧ ∃ t, step pastEnd = .next t ∧ t.fault ≠ none := by
  refine ⟨⟨by decide, fun _ h => ?_, by decide, fun _ h => ?_⟩, _, rfl, by decide⟩
  · cases h
  · cases h

end Sys2Proof.Tests
end

/-! PROOFS. What an instruction does to the 8-bit registers and the flag, read off the cases of Ran. -/

namespace Sys2Proof.Proofs

open Sys2Proof.Machine Sys2Proof.Spec

/-! ## The operations in the terms of the statements -/

/-- pc_adv in the model's words is the statements' sum in naturals (R74). -/
theorem pcAdv_eq_nextPc (s : State) (k : Nat) : s.pcAdv k = nextPc s k := by
  apply BitVec.eq_of_toNat_eq
  simp [State.pcAdv, nextPc]

/-- Read8 answers exactly the value the source has: a register's, or the backed byte's (R68). -/
theorem read8_ok_iff {s : State} {r : Reg8} {v : Byte} : read8 s r = .ok v ↔ source8 s r = some v := by
  cases r with
  | ptrC => exact memRead_ok
  | _ => simp [read8, source8, x8]

/-! ## The stored 8-bit registers under each operation -/

@[simp] theorem x8_setPc (s : State) (w : Word) (r : Reg8) : x8 (s.setPc w) r = x8 s r := by cases r <;> rfl

@[simp] theorem x8_setPtr (s : State) (w : Word) (r : Reg8) : x8 (s.setPtr w) r = x8 s r := by cases r <;> rfl

@[simp] theorem x8_setMem (s : State) (m : Memory) (r : Reg8) : x8 (s.setMem m) r = x8 s r := by cases r <;> rfl

@[simp] theorem x8_pushOut (s : State) (v : Byte) (r : Reg8) : x8 (s.pushOut v) r = x8 s r := by cases r <;> rfl

@[simp] theorem x8_setStatus (s : State) (st : RunStatus) (r : Reg8) : x8 (s.setStatus st) r = x8 s r := by
  cases r <;> rfl

@[simp] theorem x8_takeAbort (s : State) (e : Raise) (op : Option Byte) (r : Reg8) :
    x8 (s.takeAbort e op) r = x8 s r := by cases r <;> rfl

@[simp] theorem x8_write32 (s : State) (size : Nat) (dst : Reg32) (w : Word) (r : Reg8) :
    x8 (write32 s size dst w) r = x8 s r := by
  cases dst <;> cases r <;> rfl

/-- Write8 to a stored register puts the value there. -/
theorem x8_write8_same {s u : State} {dst : Reg8} {v : Byte} (hdst : dst ≠ .ptrC) (h : write8 s dst v = .ok u) :
    x8 u dst = some v := by
  cases dst with
  | ptrC => exact absurd rfl hdst
  | _ => cases h; rfl

/-- Write8 leaves every stored register but its destination. -/
theorem x8_write8_of_ne {s u : State} {dst r : Reg8} {v : Byte} (hr : r ≠ dst) (h : write8 s dst v = .ok u) :
    x8 u r = x8 s r := by
  cases dst with
  | ptrC =>
    obtain ⟨m, -, rfl⟩ := memWrite_ok h
    exact x8_setMem s m r
  | _ => cases h; cases r <;> simp at hr <;> rfl

/-! ## The stored 8-bit registers under each instruction -/

/-- MV8 that finds its source puts the source's value in a stored destination (R92). -/
theorem x8_of_ran_mv8 {s t : State} {dst src : Reg8} {v : Byte} (h : Ran s (.mv8 dst src) t) (hdst : dst ≠ .ptrC)
    (hsrc : source8 s src = some v) : x8 t dst = some v := by
  have hread := read8_ok_iff.2 hsrc
  cases h with
  | mv8 _ _ w u hr hw =>
    obtain rfl : w = v := Except.ok.inj (hr.symm.trans hread)
    rw [x8_setPc, x8_write8_same hdst hw]
  | mv8Read _ oob => exact absurd (Memory.read_eq_some_lt (memRead_ok.1 hread)) (Nat.not_lt.2 oob)
  | mv8Write => exact absurd rfl hdst

/-- MVI8 puts its immediate in a stored destination (R93). -/
theorem x8_of_ran_mvi8 {s t : State} {dst : Reg8} {v : Byte} (h : Ran s (.mvi8 dst v) t) (hdst : dst ≠ .ptrC) :
    x8 t dst = some v := by
  cases h with
  | mvi8 _ _ u hw => rw [x8_setPc, x8_write8_same hdst hw]
  | mvi8Write => exact absurd rfl hdst

/-- A stored register that the access table does not give the instruction to write keeps its value, in a
completed instruction and in an abort alike. -/
theorem x8_of_writes8_eq_false {s t : State} {i : Instr} {r : Reg8} (h : Ran s i t) (hw : writes8 i r = false) :
    x8 t r = x8 s r := by
  cases h with
  | halt | out | outFull | aptr | jez | jnz | mv8Read | mv8Write | mvi8Write | mv32 | mvi32 => simp
  | cmp => rw [x8_setPc]; exact x8_write8_of_ne (dst := .f) (by simpa [writes8] using hw) rfl
  | add | sub | xor => rw [x8_setPc]; exact x8_write8_of_ne (dst := .a) (by simpa [writes8] using hw) rfl
  | mv8 _ _ _ _ _ hu => rw [x8_setPc]; exact x8_write8_of_ne (by simpa [writes8] using hw) hu
  | mvi8 _ _ _ hu => rw [x8_setPc]; exact x8_write8_of_ne (by simpa [writes8] using hw) hu

/-! ## The flag (10_state.md R17) -/

theorem f_eq_of_x8 {s : State} {v : Byte} (h : x8 s .f = some v) : s.f = v := Option.some.inj h

/-- CMP is the one instruction that computes f, from the operands before it (R84). -/
theorem f_of_ran_cmp {s t : State} (h : Ran s .cmp t) : t.f = if s.a = s.b then 0 else 1 := by
  cases h; rfl

theorem pc_of_ran_jez {s t : State} {target : Word} (h : Ran s (.jez target) t) :
    t.pc = if s.f = 0 then target else nextPc s 5 := by
  cases h; rw [State.setPc_pc, pcAdv_eq_nextPc]

/-- JNZ is taken for every nonzero value of f, not for 1 alone (R90). -/
theorem pc_of_ran_jnz {s t : State} {target : Word} (h : Ran s (.jnz target) t) :
    t.pc = if s.f ≠ 0 then target else nextPc s 5 := by
  cases h; rw [State.setPc_pc, pcAdv_eq_nextPc, ite_not]

/-- Settles O13: each clause is a case of Ran, the writers of f by the rules of Write8 and the frame of f by the
access table. -/
theorem flagRegisterIsWrittenOnlyByCmpAndMoves : Obligations.FlagRegisterIsWrittenOnlyByCmpAndMoves := by
  refine ⟨rfl, fun i s t h => ?_⟩
  have hran : Ran s i t := exec_next h
  refine ⟨?cmp, ?mvi8, ?mv8, ?frame, ?jez, ?jnz⟩
  case cmp => rintro rfl; exact f_of_ran_cmp hran
  case mvi8 => rintro v rfl; exact f_eq_of_x8 (x8_of_ran_mvi8 hran (by decide))
  case mv8 => rintro src v rfl hsrc; exact f_eq_of_x8 (x8_of_ran_mv8 hran (by decide) hsrc)
  case frame => exact fun hw => f_eq_of_x8 (x8_of_writes8_eq_false hran hw)
  case jez => rintro target rfl; exact pc_of_ran_jez hran
  case jnz => rintro target rfl; exact pc_of_ran_jnz hran

end Sys2Proof.Proofs

/-! PROOFS. The byte accesses to memory with their bounds checks, and ptr_c as one of them. -/

namespace Sys2Proof.Proofs

open Sys2Proof.Machine Sys2Proof.Spec

/-! ## The two accesses inside the bounds -/

theorem exists_read_of_lt_size {m : Memory} {a : Nat} (h : a < m.size) : ∃ w, m.read a = some w :=
  Option.ne_none_iff_exists'.1 fun hnone => absurd (Memory.read_eq_none.1 hnone) (Nat.not_le.2 h)

theorem exists_write_of_lt_size {m : Memory} {a : Nat} (v : Byte) (h : a < m.size) : ∃ m', m.write a v = some m' :=
  Option.ne_none_iff_exists'.1 fun hnone => absurd (Memory.write_eq_none.1 hnone) (Nat.not_le.2 h)

/-- MemWrite commits exactly the memory that Memory.write makes, and no other state (R34). -/
theorem memWrite_of_write_eq_some {s : State} {addr : Word} {v : Byte} {m : Memory}
    (h : s.mem.write addr.toNat v = some m) : memWrite s addr v = .ok (s.setMem m) := by
  simp only [memWrite, h]

/-- Settles O23: inside the bounds the effect is that of Memory.read and Memory.write, outside them each access
has its one raise. -/
theorem memoryAccessesAreBoundsChecked : Obligations.MemoryAccessesAreBoundsChecked := by
  refine fun s access addr v => ⟨fun hin => ⟨?read, ?write⟩, fun hout => ⟨?readRaises, ?writeRaises⟩⟩
  case read =>
    obtain ⟨w, hw⟩ := exists_read_of_lt_size hin
    exact ⟨w, hw, memRead_ok.2 hw⟩
  case write =>
    obtain ⟨m, hm⟩ := exists_write_of_lt_size v hin
    obtain ⟨-, hsize, hsame, hother⟩ := Memory.write_eq_some hm
    exact ⟨s.setMem m, memWrite_of_write_eq_some hm, hsize, hsame, hother, rfl⟩
  case readRaises => exact memRead_error.2 ⟨hout, rfl⟩
  case writeRaises => exact memWrite_error.2 ⟨hout, rfl⟩

/-! ## ptr_c -/

/-- The ptr_c address in natural numbers (R38): zero-extending c adds nothing, and the sum wraps at 2^32. -/
theorem toNat_ptrCAddr (s : State) : (ptrCAddr s).toNat = (s.ptr.toNat + s.c.toNat) % 2 ^ 32 := by
  have hc : s.c.toNat % 2 ^ 32 = s.c.toNat := Nat.mod_eq_of_lt (by have := s.c.isLt; omega)
  rw [ptrCAddr, BitVec.toNat_add, BitVec.toNat_setWidth, hc]

@[simp] theorem x32_setMem (s : State) (m : Memory) (r : Reg32) : x32 (s.setMem m) r = x32 s r := by
  cases r <;> rfl

/-- The memory written at the ptr_c address is the whole effect of a write of ptr_c. -/
theorem wrote8_ptrC_of_write_eq_some {s : State} {v : Byte} {m : Memory}
    (h : s.mem.write (ptrCAddr s).toNat v = some m) : wrote8 s (s.setMem m) .ptrC v := by
  obtain ⟨-, hsize, hsame, hother⟩ := Memory.write_eq_some h
  exact ⟨fun r _ => x8_setMem s m r, fun hne => absurd rfl hne, fun _ => ⟨hsize, hsame, hother⟩⟩

/-- Settles O22: Read8 and Write8 of ptr_c are the two memory accesses at the ptr_c address. -/
theorem ptrCIsTheByteAtPtrPlusC : Obligations.PtrCIsTheByteAtPtrPlusC := by
  intro s v
  rw [← toNat_ptrCAddr s]
  refine ⟨rfl, fun w hw => ?read, fun hout => ⟨?readRaises, ?writeRaises⟩, fun hin => ?write⟩
  case read => exact memRead_ok.2 hw
  case readRaises => exact memRead_error.2 ⟨hout, rfl⟩
  case writeRaises => exact memWrite_error.2 ⟨hout, rfl⟩
  case write =>
    obtain ⟨m, hm⟩ := exists_write_of_lt_size v hin
    exact ⟨s.setMem m, memWrite_of_write_eq_some hm, wrote8_ptrC_of_write_eq_some hm, x32_setMem s m, rfl,
      ⟨rfl, rfl⟩, rfl, rfl⟩

end Sys2Proof.Proofs

/-! PROOFS. The decoder against the pseudocode of R56: the fields of the opcode byte and the register indices in
natural numbers, and the two tiers over them. -/

namespace Sys2Proof.Proofs

open Sys2Proof.Machine Sys2Proof.Spec

/-! ## The fields of the opcode byte in natural numbers (R49) -/

theorem toNat_fieldTt (op : Byte) : (fieldTt op).toNat = op.toNat / 64 := by
  have := op.isLt
  simp only [fieldTt, BitVec.extractLsb'_toNat, Nat.shiftRight_eq_div_pow]
  omega

theorem toNat_fieldD (op : Byte) : (fieldD op).toNat = op.toNat / 8 % 8 := by
  simp only [fieldD, BitVec.extractLsb'_toNat, Nat.shiftRight_eq_div_pow, Nat.reducePow]

theorem toNat_fieldS (op : Byte) : (fieldS op).toNat = op.toNat % 8 := by
  simp only [fieldS, BitVec.extractLsb'_toNat, Nat.shiftRight_zero, Nat.reducePow]

/-! ## The register indices in natural numbers (R14, R18) -/

@[simp] theorem toNat_reg8Index (r : Reg8) : (reg8Index r).toNat = num8 r := by cases r <;> rfl

@[simp] theorem toNat_reg32Index (r : Reg32) : (reg32Index r).toNat = num32 r := by cases r <;> rfl

@[simp] theorem num8_ne_zero (r : Reg8) : num8 r ≠ 0 := by cases r <;> decide

@[simp] theorem num32_ne_zero (r : Reg32) : num32 r ≠ 0 := by cases r <;> decide

@[simp] theorem num32_ne_seven (r : Reg32) : num32 r ≠ 7 := by cases r <;> decide

/-- Index 0 is the one that names no 8-bit register (R14). -/
theorem reg8OfIndex_eq_none {i : BitVec 3} : reg8OfIndex i = none ↔ i.toNat = 0 := by revert i; decide

/-- The indices 0 and 7 are the ones that name no 32-bit register (R18). -/
theorem reg32OfIndex_eq_none {i : BitVec 3} : reg32OfIndex i = none ↔ i.toNat = 0 ∨ i.toNat = 7 := by
  revert i; decide

theorem toNat_of_reg8OfIndex_eq_some {i : BitVec 3} {r : Reg8} (h : reg8OfIndex i = some r) : i.toNat = num8 r := by
  rw [reg8OfIndex_eq_some.1 h, toNat_reg8Index]

theorem toNat_of_reg32OfIndex_eq_some {i : BitVec 3} {r : Reg32} (h : reg32OfIndex i = some r) :
    i.toNat = num32 r := by
  rw [reg32OfIndex_eq_some.1 h, toNat_reg32Index]

/-! ## The two tiers (R53 to R55) -/

/-- Each row of the fixed-opcode table is a row of R56's case. -/
theorem decodeR56_of_tierA {op : Byte} {h : Head} (hA : decodeTierA op = some h) :
    decodeR56 op.toNat = some (headView h) := by
  unfold decodeTierA at hA
  split at hA <;> cases hA <;> rw [‹op.toNat = _›] <;> rfl

/-- The bytes that fall through the fixed-opcode table to Tier B (R53, R55). -/
theorem decodeTierA_eq_none {op : Byte} :
    decodeTierA op = none ↔ op.toNat ∉ [0x01, 0x02, 0xC1, 0xC2, 0xC3, 0xC4, 0xE1, 0x21, 0x22] := by
  revert op; decide

/-- What R56 does with the fields tt, d and s once its case has no row for the byte. -/
def moveOfFields (tt d s : Nat) : Option (Mnemonic × Nat × Nat × Nat) :=
  if tt = 1 then
    if d = 0 then none else if s = 0 then some (.MVI8, 2, d, 0) else some (.MV8, 1, d, s)
  else if tt = 2 then
    if d = 0 ∨ d = 7 then none
    else if s = 0 then some (.MVI32, 5, d, 0)
    else if s = 7 then none
    else some (.MV32, 1, d, s)
  else none

/-- A byte outside the fixed-opcode table has no row in R56's case either. -/
theorem decodeR56_of_tierA_eq_none {op : Byte} (hA : decodeTierA op = none) :
    decodeR56 op.toNat = moveOfFields (fieldTt op).toNat (fieldD op).toNat (fieldS op).toNat := by
  have hrows := decodeTierA_eq_none.1 hA
  simp only [List.mem_cons, List.not_mem_nil, not_or] at hrows
  simp only [decodeR56, hrows, if_false, moveOfFields, toNat_fieldTt, toNat_fieldD, toNat_fieldS]

/-! ### What the decoder's answer shows of each move: the lengths of R47 with the indices -/

@[simp] theorem headView_mv8 (dst src : Reg8) : headView (.mv8 dst src) = (.MV8, 1, num8 dst, num8 src) := rfl

@[simp] theorem headView_mvi8 (dst : Reg8) : headView (.mvi8 dst) = (.MVI8, 2, num8 dst, 0) := rfl

@[simp] theorem headView_mv32 (dst src : Reg32) : headView (.mv32 dst src) = (.MV32, 1, num32 dst, num32 src) := rfl

@[simp] theorem headView_mvi32 (dst : Reg32) : headView (.mvi32 dst) = (.MVI32, 5, num32 dst, 0) := rfl

theorem fieldS_eq_zero_iff {op : Byte} : fieldS op = 0#3 ↔ (fieldS op).toNat = 0 := BitVec.toNat_inj.symm

/-- The 8-bit moves: an index without a register is a 0, which as a destination is no instruction and as a source
the immediate form (R54). -/
theorem map_headView_decodeTierB_byte {op : Byte} (htt : fieldTt op = 0b01#2) :
    (decodeTierB op).map headView = moveOfFields 1 (fieldD op).toNat (fieldS op).toNat := by
  cases hd : reg8OfIndex (fieldD op) with
  | none => simp [decodeTierB, moveOfFields, htt, hd, reg8OfIndex_eq_none.1 hd]
  | some dst =>
    have hdst := toNat_of_reg8OfIndex_eq_some hd
    cases hs : reg8OfIndex (fieldS op) with
    | none => simp [decodeTierB, moveOfFields, htt, hd, hdst, fieldS_eq_zero_iff, reg8OfIndex_eq_none.1 hs]
    | some src =>
      simp [decodeTierB, moveOfFields, htt, hd, hdst, fieldS_eq_zero_iff, hs, toNat_of_reg8OfIndex_eq_some hs]

/-- The 32-bit moves: an index without a register is a 0, as among the 8-bit moves, or a 7, which is no
instruction on either side (R54). -/
theorem map_headView_decodeTierB_word {op : Byte} (htt : fieldTt op = 0b10#2) :
    (decodeTierB op).map headView = moveOfFields 2 (fieldD op).toNat (fieldS op).toNat := by
  cases hd : reg32OfIndex (fieldD op) with
  | none => simp [decodeTierB, moveOfFields, htt, hd, reg32OfIndex_eq_none.1 hd]
  | some dst =>
    have hdst := toNat_of_reg32OfIndex_eq_some hd
    cases hs : reg32OfIndex (fieldS op) with
    | none =>
      obtain h0 | h7 := reg32OfIndex_eq_none.1 hs
      · simp [decodeTierB, moveOfFields, htt, hd, hdst, fieldS_eq_zero_iff, h0]
      · simp [decodeTierB, moveOfFields, htt, hd, hdst, fieldS_eq_zero_iff, hs, h7]
    | some src =>
      simp [decodeTierB, moveOfFields, htt, hd, hdst, fieldS_eq_zero_iff, hs, toNat_of_reg32OfIndex_eq_some hs]

/-- Tier B reads the fields as R56 does. -/
theorem map_headView_decodeTierB (op : Byte) :
    (decodeTierB op).map headView = moveOfFields (fieldTt op).toNat (fieldD op).toNat (fieldS op).toNat := by
  by_cases h1 : fieldTt op = 0b01#2
  · rw [map_headView_decodeTierB_byte h1, h1]; rfl
  · by_cases h2 : fieldTt op = 0b10#2
    · rw [map_headView_decodeTierB_word h2, h2]; rfl
    · have n1 : (fieldTt op).toNat ≠ 1 := fun h => h1 (BitVec.eq_of_toNat_eq h)
      have n2 : (fieldTt op).toNat ≠ 2 := fun h => h2 (BitVec.eq_of_toNat_eq h)
      simp only [decodeTierB, moveOfFields, h1, h2, n1, n2, if_false, Option.map_none]

/-- Settles O26: the fixed-opcode table has the rows of R56's case, and Tier B is what follows them. -/
theorem decodeOpcodeIsTheSpecsFunction : Obligations.DecodeOpcodeIsTheSpecsFunction := by
  intro op
  cases hA : decodeTierA op with
  | some h => simp only [decodeOpcode, hA, Option.map_some, decodeR56_of_tierA hA]
  | none => simp only [decodeOpcode, hA, map_headView_decodeTierB, decodeR56_of_tierA_eq_none hA]

end Sys2Proof.Proofs

/-! PROOFS. The abort of a step and the end of a run: where an ABORTED status comes from, and what it leaves. -/

namespace Sys2Proof.Proofs

open Sys2Proof.Machine Sys2Proof.Spec

/-! ## The run status under the writes of operands -/

theorem status_of_write8_ok {s u : State} {r : Reg8} {v : Byte} (h : write8 s r v = .ok u) : u.status = s.status := by
  obtain ⟨-, rfl⟩ | ⟨-, rfl⟩ | ⟨-, rfl⟩ | ⟨-, rfl⟩ | ⟨-, rfl⟩ | ⟨-, rfl⟩ | ⟨-, m, -, rfl⟩ := write8_ok h <;> rfl

@[simp] theorem status_write32 (s : State) (size : Nat) (r : Reg32) (v : Word) :
    (write32 s size r v).status = s.status := by
  cases r <;> rfl

/-! ## Where ABORTED comes from -/

/-- An instruction either takes the abort from the state before it or leaves a status that is not ABORTED: no
other write of it sets that status. -/
theorem takeAbort_of_ran_aborted {s t : State} {i : Instr} (h : Ran s i t) (hs : s.status ≠ .aborted)
    (ht : t.status = .aborted) : ∃ e op, t = s.takeAbort e op := by
  cases h with
  | outFull | mv8Read | mv8Write | mvi8Write => exact ⟨_, _, rfl⟩
  | halt => rw [State.setPc_status, State.setStatus_status] at ht; cases ht
  | out | cmp | add | sub | xor | aptr | jez | jnz => exact absurd ht hs
  | mv8 _ _ _ _ _ hw | mvi8 _ _ _ hw =>
    rw [State.setPc_status, status_of_write8_ok hw] at ht
    exact absurd ht hs
  | mv32 | mvi32 => rw [status_write32] at ht; exact absurd ht hs

/-- A step to ABORTED is the abort taken from the state before it, whether its fetch or its instruction raised
(R76, R101). -/
theorem takeAbort_of_step_aborted {s t : State} (h : step s = .next t) (ht : t.status = .aborted) :
    ∃ e op, t = s.takeAbort e op := by
  obtain ⟨hrun, ⟨i, -, hexec⟩ | ⟨e, op, -, rfl⟩⟩ := step_next h
  · exact takeAbort_of_ran_aborted (exec_next hexec) (by simp [hrun]) ht
  · exact ⟨e, op, rfl⟩

/-! ## What the abort leaves -/

@[simp] theorem x32_takeAbort (s : State) (e : Raise) (op : Option Byte) (r : Reg32) :
    x32 (s.takeAbort e op) r = x32 s r := by
  cases r <;> rfl

/-- Settles O39: the step is the abort of the state before it, which writes the status and the record alone. -/
theorem abortingStepCommitsNothing : Obligations.AbortingStepCommitsNothing := by
  intro s t h ht
  obtain ⟨hrun, -⟩ := step_next h
  obtain ⟨e, op, rfl⟩ := takeAbort_of_step_aborted h ht
  exact ⟨x8_takeAbort s e op, x32_takeAbort s e op, State.takeAbort_pc s e op, ⟨rfl, fun _ => rfl⟩, ⟨rfl, rfl⟩, hrun,
    _, State.takeAbort_fault s e op, rfl⟩

/-- Settles O41: a step that answers a next state starts RUNNING. -/
theorem noStepAfterTheRunEnds : Obligations.NoStepAfterTheRunEnds := by
  intro s t hs h
  obtain ⟨hrun, -⟩ := step_next h
  exact hs hrun

end Sys2Proof.Proofs

/-! PROOFS. HALT (41_output_halt.md R81): the state it leaves, and the result the host sees there. -/

namespace Sys2Proof.Proofs

open Sys2Proof.Machine Sys2Proof.Spec

/-- HALT's pseudocode in R81; its operations on the state are the two field writes. -/
theorem exec_halt (s : State) : exec .halt s = .next { s with pc := nextPc s 1, status := .halted } := by
  have harm : exec .halt s = .next ((s.setStatus .halted).setPc (s.pcAdv 1)) := rfl
  rw [harm, pcAdv_eq_nextPc]
  rfl

/-- The result of a HALTED run is its output buffer, exposed or not (R79). -/
theorem hostResult_of_halted {s : State} (h : s.status = .halted) (expose : Bool) :
    hostResult expose s = .output s.out := by
  rw [hostResult, h]

/-- Settles O5: HALT leaves a HALTED state, from which no step leads (R72) and whose output is the old one. -/
theorem haltEndsTheRun : Obligations.HaltEndsTheRun := by
  intro s expose
  have hnostep : ∀ u, step { s with pc := nextPc s 1, status := .halted } ≠ .next u :=
    fun u => noStepAfterTheRunEnds _ u (by simp)
  exact ⟨rfl, _, rfl, exec_halt s, hnostep, hostResult_of_halted rfl expose⟩

end Sys2Proof.Proofs

/-! PROOFS. The ALU (42_alu.md R83 to R87): the state each of its instructions leaves, and its results in the
arithmetic of the rules. -/

namespace Sys2Proof.Proofs

open Sys2Proof.Machine Sys2Proof.Spec

/-! ## The results in natural numbers and in bits (R83) -/

theorem aluR_add_eq (a b : Byte) : aluR .add a b = BitVec.ofNat 8 ((a.toNat + b.toNat) % 256) := by
  apply BitVec.eq_of_toNat_eq
  simp [aluR]

/-- The borrow of a subtraction modulo 256 is R86's case a < b. -/
theorem aluR_sub_eq (a b : Byte) :
    aluR .sub a b =
      BitVec.ofNat 8 (if b.toNat ≤ a.toNat then a.toNat - b.toNat else a.toNat + 256 - b.toNat) := by
  have ha := a.isLt
  have hb := b.isLt
  apply BitVec.eq_of_toNat_eq
  rw [aluR, BitVec.toNat_sub, BitVec.toNat_ofNat]
  split <;> omega

theorem getLsbD_aluR_xor (a b : Byte) (k : Nat) : (aluR .xor a b).getLsbD k = (a.getLsbD k != b.getLsbD k) :=
  BitVec.getLsbD_xor

/-! ## The next states -/

/-- The instructions with a result write a and pc, and nothing else: f is among what they keep. -/
theorem aluToA_eq (op : AluOp) (s : State) : aluToA op s = { s with a := aluR op s.a s.b, pc := nextPc s 1 } := by
  rw [aluToA, State.advance_eq, State.setA_pcAdv, pcAdv_eq_nextPc]
  rfl

theorem exec_cmp (s : State) : exec .cmp s = .next { s with f := aluF s.a s.b, pc := nextPc s 1 } := by
  have harm : exec .cmp s = .next ((s.setF (aluF s.a s.b)).setPc (s.pcAdv 1)) := rfl
  rw [harm, pcAdv_eq_nextPc]
  rfl

theorem exec_add (s : State) : exec .add s = .next { s with a := aluR .add s.a s.b, pc := nextPc s 1 } :=
  congrArg Host.Outcome.next (aluToA_eq .add s)

theorem exec_sub (s : State) : exec .sub s = .next { s with a := aluR .sub s.a s.b, pc := nextPc s 1 } :=
  congrArg Host.Outcome.next (aluToA_eq .sub s)

theorem exec_xor (s : State) : exec .xor s = .next { s with a := aluR .xor s.a s.b, pc := nextPc s 1 } :=
  congrArg Host.Outcome.next (aluToA_eq .xor s)

/-! ## The statements -/

/-- Settles O1: alu_f is R84's 0 or 1, and f is the one register it goes to. -/
theorem cmpSetsFlagToInequality : Obligations.CmpSetsFlagToInequality :=
  fun s => ⟨rfl, exec_cmp s⟩

/-- Settles O2: alu_r of ADD is R85's sum modulo 256. -/
theorem addStoresSumModulo256 : Obligations.AddStoresSumModulo256 := by
  refine fun s => ⟨rfl, ?_⟩
  rw [exec_add, aluR_add_eq]

/-- Settles O3: alu_r of SUB is R86's difference in both of its cases. -/
theorem subStoresDifferenceModulo256 : Obligations.SubStoresDifferenceModulo256 := by
  refine fun s => ⟨rfl, ?_⟩
  rw [exec_sub, aluR_sub_eq]

/-- Settles O4: the value stored is alu_r of XOR, read bit by bit (R87). -/
theorem xorStoresBitwiseExclusiveOr : Obligations.XorStoresBitwiseExclusiveOr :=
  fun s => ⟨rfl, aluR .xor s.a s.b, exec_xor s, fun k _ => getLsbD_aluR_xor s.a s.b k⟩

end Sys2Proof.Proofs

/-! PROOFS. The move family (45_move.md): the encodings in the register indices of R14 and R18, the two writes of
operands with their frames, and the abort of a fetch that misses an immediate byte. -/

namespace Sys2Proof.Proofs

open Sys2Proof.Machine Sys2Proof.Spec

/-! ## The encodings in natural numbers (R49, R51) -/

/-- The three fields of a move's opcode byte are its base-8 digits, tt the highest. -/
theorem moveOpcode_eq_ofNat (tt : BitVec 2) (d s : BitVec 3) :
    moveOpcode tt d s = BitVec.ofNat 8 (64 * tt.toNat + 8 * d.toNat + s.toNat) := by
  have htt := tt.isLt
  have hd := d.isLt
  have hs := s.isLt
  apply BitVec.eq_of_toNat_eq
  rw [moveOpcode, BitVec.toNat_append, BitVec.toNat_append, ← Nat.shiftLeft_add_eq_or_of_lt hd,
    ← Nat.shiftLeft_add_eq_or_of_lt hs, Nat.shiftLeft_eq, Nat.shiftLeft_eq, BitVec.toNat_ofNat]
  omega

theorem opcodeOf_mv8 (dst src : Reg8) : opcodeOf (.mv8 dst src) = BitVec.ofNat 8 (64 + 8 * num8 dst + num8 src) := by
  simp [opcodeOf, moveOpcode_eq_ofNat]

theorem opcodeOf_mvi8 (dst : Reg8) (imm8 : Byte) :
    opcodeOf (.mvi8 dst imm8) = BitVec.ofNat 8 (64 + 8 * num8 dst) := by
  simp [opcodeOf, moveOpcode_eq_ofNat]

theorem opcodeOf_mv32 (dst src : Reg32) :
    opcodeOf (.mv32 dst src) = BitVec.ofNat 8 (128 + 8 * num32 dst + num32 src) := by
  simp [opcodeOf, moveOpcode_eq_ofNat]

theorem opcodeOf_mvi32 (dst : Reg32) (imm32 : Word) :
    opcodeOf (.mvi32 dst imm32) = BitVec.ofNat 8 (128 + 8 * num32 dst) := by
  simp [opcodeOf, moveOpcode_eq_ofNat]

/-- Eight bits of a word are a digit of it to the base 256. -/
theorem extractLsb'_byte_eq_ofNat (w : Word) (start : Nat) :
    w.extractLsb' start 8 = BitVec.ofNat 8 (w.toNat / 2 ^ start % 256) := by
  apply BitVec.eq_of_toNat_eq
  simp [Nat.shiftRight_eq_div_pow]

theorem imm32Bytes_eq_leBytes (w : Word) : imm32Bytes w = leBytes w := by
  simp [imm32Bytes, leBytes, extractLsb'_byte_eq_ofNat]

/-! ## The abort -/

/-- The abort is taken with the raise's own cause and access, and writes the status and the record alone (R101). -/
theorem abortedWith_takeAbort (s : State) (e : Raise) (op : Option Byte) :
    abortedWith s (s.takeAbort e op) e.cause e.access :=
  ⟨rfl, ⟨_, rfl, rfl, rfl⟩, x8_takeAbort s e op, x32_takeAbort s e op, rfl, ⟨rfl, fun _ => rfl⟩, rfl, rfl⟩

/-! ## The fetch of an immediate that is not all in memory (R59) -/

/-- The address of an immediate byte, counted from the first one, is the statements' sum in naturals. -/
theorem pc_succ_add_eq_nextPc (s : State) (j : Nat) : s.pc + 1#32 + BitVec.ofNat 32 j = nextPc s (j + 1) := by
  rw [BitVec.add_assoc, ← BitVec.ofNat_add, Nat.add_comm 1 j]
  exact pcAdv_eq_nextPc s (j + 1)

/-- One missing byte among those to fetch raises FETCH_IMMEDIATE, at this byte or at one before it. -/
theorem fetchBytes_raises_of_oob {s : State} {addr : Word} {n j : Nat} (hj : j < n)
    (hoob : s.mem.size ≤ (addr + BitVec.ofNat 32 j).toNat) :
    ∃ a, fetchBytes s addr n = .error (Raise.outOfBounds .fetchImmediate a) := by
  cases h : fetchBytes s addr n with
  | ok ib =>
    obtain ⟨hlen, hbytes⟩ := fetchBytes_ok h
    have hnone : ib[j]? = none := (hbytes j hj).symm.trans (Memory.read_eq_none.2 hoob)
    exact absurd (List.getElem?_eq_none_iff.1 hnone) (by omega)
  | error e =>
    obtain ⟨k, -, -, -, rfl⟩ := fetchBytes_error h
    exact ⟨_, rfl⟩

/-- A recognized opcode whose immediate bytes raise: the fetch raises the same, with the opcode (R97). -/
theorem fetch_of_fetchBytes_error {s : State} {op : Byte} {hd : Head} {e : Raise}
    (hop : s.mem.read s.pc.toNat = some op) (hdec : decodeOpcode op = some hd)
    (herr : fetchBytes s (s.pc + 1#32) hd.immBytes = .error e) : fetch s = .error (e, some op) := by
  simp only [fetch, memRead_ok.2 hop, hdec, herr]

theorem step_of_fetch_error {s : State} {e : Raise} {op : Option Byte} (hrun : s.status = .running)
    (herr : fetch s = .error (e, op)) : step s = .next (s.takeAbort e op) := by
  simp only [step, hrun, herr]

/-- A step on a recognized opcode aborts with FETCH_IMMEDIATE when any of its immediate bytes is missing. -/
theorem step_aborts_of_immediate_oob {s : State} {op : Byte} {hd : Head} {k : Nat} (hrun : s.status = .running)
    (hop : s.mem.read s.pc.toNat = some op) (hdec : decodeOpcode op = some hd) (hk : 1 ≤ k)
    (hkn : k ≤ hd.immBytes) (hoob : s.mem.size ≤ (nextPc s k).toNat) :
    ∃ t, step s = .next t ∧ abortedWith s t .outOfBounds (some .fetchImmediate) := by
  obtain ⟨j, rfl⟩ := Nat.exists_eq_add_of_le' hk
  rw [← pc_succ_add_eq_nextPc] at hoob
  obtain ⟨a, herr⟩ := fetchBytes_raises_of_oob hkn hoob
  exact ⟨_, step_of_fetch_error hrun (fetch_of_fetchBytes_error hop hdec herr), abortedWith_takeAbort s _ _⟩

/-! ## Write8 with its frame (R68) -/

/-- Write8 puts the value in its destination and nowhere else. -/
theorem wrote8_of_write8_ok {s u : State} {dst : Reg8} {v : Byte} (h : write8 s dst v = .ok u) :
    wrote8 s u dst v := by
  cases dst with
  | ptrC =>
    obtain ⟨m, hm, rfl⟩ := memWrite_ok h
    exact wrote8_ptrC_of_write_eq_some hm
  | _ =>
    refine ⟨fun r hr => x8_write8_of_ne hr h, fun hne => ⟨x8_write8_same hne h, ?_⟩, nofun⟩
    cases h
    exact ⟨rfl, fun _ => rfl⟩

/-- Write8 leaves the 32-bit registers, the output and the run. -/
theorem frame_of_write8_ok {s u : State} {dst : Reg8} {v : Byte} (h : write8 s dst v = .ok u) :
    same32 s u ∧ sameOut s u ∧ sameRun s u := by
  obtain ⟨-, rfl⟩ | ⟨-, rfl⟩ | ⟨-, rfl⟩ | ⟨-, rfl⟩ | ⟨-, rfl⟩ | ⟨-, rfl⟩ | ⟨-, m, -, rfl⟩ := write8_ok h <;>
    exact ⟨fun r => by cases r <;> rfl, ⟨rfl, rfl⟩, rfl, rfl⟩

@[simp] theorem x32_setPc (s : State) (w : Word) (r : Reg32) : x32 (s.setPc w) r = x32 s r := by cases r <;> rfl

/-- The write of an 8-bit destination is not undone by the pc's advance. -/
theorem wrote8_setPc {s u : State} {dst : Reg8} {v : Byte} (h : wrote8 s u dst v) (w : Word) :
    wrote8 s (u.setPc w) dst v := by
  obtain ⟨hother, hreg, hmem⟩ := h
  exact ⟨fun r hr => (x8_setPc u w r).trans (hother r hr),
    fun hne => ⟨(x8_setPc u w dst).trans (hreg hne).1, (hreg hne).2⟩, hmem⟩

/-- The state after a completed 8-bit move: the destination is written, pc is past the instruction, and the rest
is as before. -/
theorem completed_of_write8_ok {s t u : State} {dst : Reg8} {v : Byte} {size : Nat} (h : write8 s dst v = .ok u)
    (ht : t = u.setPc (s.pcAdv size)) :
    wrote8 s t dst v ∧ t.pc = nextPc s size ∧ same32 s t ∧ sameOut s t ∧ sameRun s t := by
  subst ht
  obtain ⟨h32, hout, hrun⟩ := frame_of_write8_ok h
  exact ⟨wrote8_setPc (wrote8_of_write8_ok h) _, pcAdv_eq_nextPc s size, fun r => (x32_setPc u _ r).trans (h32 r),
    hout, hrun⟩

/-! ## What MV8 and MVI8 do where the statements speak (R92, R93) -/

/-- MV8 whose source has a value, to a destination that is there, completes: neither access raises. -/
theorem write8_ok_of_ran_mv8 {s t : State} {dst src : Reg8} {v : Byte} (h : Ran s (.mv8 dst src) t)
    (hsrc : source8 s src = some v) (hdst : dst = .ptrC → (ptrCAddr s).toNat < s.mem.size) :
    ∃ u, write8 s dst v = .ok u ∧ t = u.setPc (s.pcAdv 1) := by
  have hread := read8_ok_iff.2 hsrc
  cases h with
  | mv8 _ _ w u hr hw =>
    obtain rfl : w = v := Except.ok.inj (hr.symm.trans hread)
    exact ⟨u, hw, rfl⟩
  | mv8Read _ oob => exact absurd (Memory.read_eq_some_lt (memRead_ok.1 hread)) (Nat.not_lt.2 oob)
  | mv8Write _ _ oob => exact absurd (hdst rfl) (Nat.not_lt.2 oob)

theorem write8_ok_of_ran_mvi8 {s t : State} {dst : Reg8} {v : Byte} (h : Ran s (.mvi8 dst v) t)
    (hdst : dst = .ptrC → (ptrCAddr s).toNat < s.mem.size) :
    ∃ u, write8 s dst v = .ok u ∧ t = u.setPc (s.pcAdv 2) := by
  cases h with
  | mvi8 _ _ u hw => exact ⟨u, hw, rfl⟩
  | mvi8Write _ oob => exact absurd (hdst rfl) (Nat.not_lt.2 oob)

/-- MV8 from an unbacked ptr_c takes the read's abort, whatever its destination is (R102). -/
theorem takeAbort_of_ran_mv8_read_oob {s t : State} {dst : Reg8} (h : Ran s (.mv8 dst .ptrC) t)
    (hoob : s.mem.size ≤ (ptrCAddr s).toNat) :
    t = s.takeAbort (Raise.outOfBounds .dataRead (ptrCAddr s)) (some (opcodeOf (.mv8 dst .ptrC))) := by
  cases h with
  | mv8 _ _ v u hr => exact absurd (Memory.read_eq_some_lt (memRead_ok.1 hr)) (Nat.not_lt.2 hoob)
  | mv8Read => rfl
  | mv8Write _ hne => exact absurd rfl hne

/-- A write of an unbacked ptr_c does not complete. -/
theorem write8_ptrC_ne_ok {s u : State} {v : Byte} (hoob : s.mem.size ≤ (ptrCAddr s).toNat) :
    write8 s .ptrC v ≠ .ok u := by
  intro h
  have herr : write8 s .ptrC v = .error _ := memWrite_error.2 ⟨hoob, rfl⟩
  cases h.symm.trans herr

theorem takeAbort_of_ran_mv8_write_oob {s t : State} {src : Reg8} (h : Ran s (.mv8 .ptrC src) t)
    (hsrc : src ≠ .ptrC) (hoob : s.mem.size ≤ (ptrCAddr s).toNat) :
    t = s.takeAbort (Raise.outOfBounds .dataWrite (ptrCAddr s)) (some (opcodeOf (.mv8 .ptrC src))) := by
  cases h with
  | mv8 _ _ v u _ hw => exact absurd hw (write8_ptrC_ne_ok hoob)
  | mv8Read => exact absurd rfl hsrc
  | mv8Write => rfl

theorem takeAbort_of_ran_mvi8_write_oob {s t : State} {imm8 : Byte} (h : Ran s (.mvi8 .ptrC imm8) t)
    (hoob : s.mem.size ≤ (ptrCAddr s).toNat) :
    t = s.takeAbort (Raise.outOfBounds .dataWrite (ptrCAddr s)) (some (opcodeOf (.mvi8 .ptrC imm8))) := by
  cases h with
  | mvi8 _ _ u hw => exact absurd hw (write8_ptrC_ne_ok hoob)
  | mvi8Write => rfl

/-! ## Write32 and Read32 (R68, R74) -/

/-- Read32 of a one-byte instruction is the statements' source, pc being read advanced. -/
theorem read32_one_eq_source32 (s : State) (r : Reg32) : read32 s 1 r = source32 s r := by
  cases r with
  | pc => exact pcAdv_eq_nextPc s 1
  | _ => rfl

theorem x32_write32_same {s : State} {size : Nat} {dst : Reg32} {v : Word} (hdst : dst ≠ .pc) :
    x32 (write32 s size dst v) dst = some v := by
  cases dst with
  | pc => exact absurd rfl hdst
  | _ => rfl

theorem x32_write32_of_ne {s : State} {size : Nat} {dst r : Reg32} {v : Word} (hr : r ≠ dst) :
    x32 (write32 s size dst v) r = x32 s r := by
  cases dst with
  | pc => exact x32_setPc s v r
  | _ => cases r <;> simp at hr <;> rfl

theorem pc_write32_of_ne {s : State} {size : Nat} {dst : Reg32} {v : Word} (hdst : dst ≠ .pc) :
    (write32 s size dst v).pc = nextPc s size := by
  rw [← pcAdv_eq_nextPc]
  cases dst with
  | pc => exact absurd rfl hdst
  | _ => rfl

/-- The effect of a 32-bit move (R94, R95): its destination or a jump, and the rest as before. -/
theorem completed_of_eq_write32 {s t : State} {size : Nat} {dst : Reg32} {v : Word}
    (ht : t = write32 s size dst v) :
    (dst ≠ .pc → x32 t dst = some v ∧ t.pc = nextPc s size) ∧ (dst = .pc → t.pc = v) ∧
      same32But s t dst ∧ same8 s t ∧ sameMem s t ∧ sameOut s t ∧ sameRun s t := by
  subst ht
  refine ⟨fun hne => ⟨x32_write32_same hne, pc_write32_of_ne hne⟩, ?jump, fun r hr => x32_write32_of_ne hr,
    x8_write32 s size dst v, ?rest⟩
  case jump => rintro rfl; rfl
  case rest => cases dst <;> exact ⟨⟨rfl, fun _ => rfl⟩, ⟨rfl, rfl⟩, rfl, rfl⟩

/-! ## The statements -/

/-- Settles O16: MV8 always answers a next state (exec_total), and the premises of each clause leave one case of
Ran. -/
theorem mv8CopiesSourceToDestination : Obligations.Mv8CopiesSourceToDestination := by
  intro dst src s
  obtain ⟨t, hexec⟩ := exec_total (.mv8 dst src) s
  have hran := exec_next hexec
  refine ⟨by rw [encode, opcodeOf_mv8]; rfl, fun v hsrc hdst => ⟨t, hexec, ?copy⟩,
    fun hsrc hoob => ⟨t, hexec, ?read⟩, fun hsrc hdst hoob => ⟨t, hexec, ?write⟩⟩
  case copy =>
    obtain ⟨u, hu, ht⟩ := write8_ok_of_ran_mv8 hran hsrc hdst
    exact completed_of_write8_ok hu ht
  case read =>
    subst hsrc
    rw [takeAbort_of_ran_mv8_read_oob hran hoob]
    exact abortedWith_takeAbort s _ _
  case write =>
    subst hdst
    rw [takeAbort_of_ran_mv8_write_oob hran hsrc hoob]
    exact abortedWith_takeAbort s _ _

/-- Settles O17: the two ways MVI8 can run, and the fetch that does not reach it. -/
theorem mvi8StoresTheImmediate : Obligations.Mvi8StoresTheImmediate := by
  intro dst imm8 s
  obtain ⟨t, hexec⟩ := exec_total (.mvi8 dst imm8) s
  have hran := exec_next hexec
  refine ⟨by rw [encode, opcodeOf_mvi8]; rfl, fun hdst => ⟨t, hexec, ?store⟩, fun hdst hoob => ⟨t, hexec, ?write⟩,
    fun hrun hop hoob => ?fetch⟩
  case store =>
    obtain ⟨u, hu, ht⟩ := write8_ok_of_ran_mvi8 hran hdst
    exact completed_of_write8_ok hu ht
  case write =>
    subst hdst
    rw [takeAbort_of_ran_mvi8_write_oob hran hoob]
    exact abortedWith_takeAbort s _ _
  case fetch =>
    rw [← opcodeOf_mvi8 dst imm8] at hop
    exact step_aborts_of_immediate_oob hrun hop (decodeOpcode_mvi8 dst) le_rfl le_rfl hoob

/-- Settles O18: MV32 is one Write32 of one Read32, both total. -/
theorem mv32CopiesSourceToDestination : Obligations.Mv32CopiesSourceToDestination := by
  intro dst src s
  have hexec : exec (.mv32 dst src) s = .next (write32 s 1 dst (source32 s src)) := by
    rw [← read32_one_eq_source32]; rfl
  exact ⟨by rw [encode, opcodeOf_mv32]; rfl, _, hexec, completed_of_eq_write32 rfl⟩

/-- Settles O19: MVI32 is one Write32, and its opcode asks for four immediate bytes. -/
theorem mvi32StoresTheImmediate : Obligations.Mvi32StoresTheImmediate := by
  intro dst imm32 s
  refine ⟨?encoding, ⟨_, rfl, completed_of_eq_write32 rfl⟩, fun k hk hk4 hrun hop hoob => ?fetch⟩
  case encoding => rw [encode, opcodeOf_mvi32, immediatesOf, imm32Bytes_eq_leBytes]
  case fetch =>
    rw [← opcodeOf_mvi32 dst imm32] at hop
    exact step_aborts_of_immediate_oob hrun hop (decodeOpcode_mvi32 dst) hk hk4 hoob

end Sys2Proof.Proofs

/-! PROOFS. The encoder and the decoder are inverse to each other (30_encoding.md R47 to R59): the opcode byte carries
the Head of an instruction, and the bytes after it are exactly its immediates. -/

namespace Sys2Proof.Proofs

open Sys2Proof.Machine Sys2Proof.Spec

/-! ## What the opcode byte of an instruction carries -/

/-- An instruction without its immediates. -/
def headOf (i : Instr) : Head :=
  match i with
  | .halt => .halt
  | .out => .out
  | .cmp => .cmp
  | .add => .add
  | .sub => .sub
  | .xor => .xor
  | .aptr _ => .aptr
  | .jez _ => .jez
  | .jnz _ => .jnz
  | .mv8 dst src => .mv8 dst src
  | .mvi8 dst _ => .mvi8 dst
  | .mv32 dst src => .mv32 dst src
  | .mvi32 dst _ => .mvi32 dst

@[simp] theorem decodeOpcode_opcodeOf (i : Instr) : decodeOpcode (opcodeOf i) = some (headOf i) := by
  cases i with
  | mv8 dst src => exact decodeOpcode_mv8 dst src
  | mvi8 dst _ => exact decodeOpcode_mvi8 dst
  | mv32 dst src => exact decodeOpcode_mv32 dst src
  | mvi32 dst _ => exact decodeOpcode_mvi32 dst
  | _ => rfl

@[simp] theorem length_immediatesOf (i : Instr) : (immediatesOf i).length = (headOf i).immBytes := by
  cases i <;> rfl

theorem length_encode (i : Instr) : (encode i).length = (headOf i).immBytes + 1 := by
  rw [encode, List.length_cons, length_immediatesOf]

/-- The Head and the immediate bytes make the instruction again. -/
@[simp] theorem withImmediates_immediatesOf (i : Instr) : (headOf i).withImmediates (immediatesOf i) = i := by
  cases i with
  | jez w | jnz w | mvi32 _ w => simp only [headOf, Head.withImmediates, immediatesOf, imm32Of_imm32Bytes]
  | _ => rfl

/-! ## Decoding what was encoded -/

/-- The decoder takes as many bytes after a recognized opcode as its Head asks for. -/
theorem decode_cons {op : Byte} {h : Head} {ib : List Byte} (hop : decodeOpcode op = some h)
    (hib : ib.length = h.immBytes) (rest : List Byte) :
    decode (op :: (ib ++ rest)) = .ok (h.withImmediates ib) rest := by
  simp only [decode, hop, ← hib, List.length_append, List.take_left, List.drop_left]
  exact if_neg (by omega)

/-- Settles O29: the opcode byte decodes to the Head, and the immediates are as many as it asks for. -/
theorem decodeInvertsEncode : Obligations.DecodeInvertsEncode := by
  intro i rest
  have h := decode_cons (decodeOpcode_opcodeOf i) (length_immediatesOf i) rest
  rwa [withImmediates_immediatesOf] at h

/-! ## Encoding what was decoded -/

/-- What the decoder read when it answers an instruction. -/
theorem eq_cons_of_decode_ok {bs rest : List Byte} {i : Instr} (h : decode bs = .ok i rest) :
    ∃ op hd ib, bs = op :: (ib ++ rest) ∧ decodeOpcode op = some hd ∧ ib.length = hd.immBytes ∧
      i = hd.withImmediates ib := by
  cases bs with
  | nil => cases h
  | cons op tail =>
    cases hop : decodeOpcode op with
    | none => simp [decode, hop] at h
    | some hd =>
      by_cases hlen : tail.length < hd.immBytes
      · simp [decode, hop, hlen] at h
      · simp only [decode, hop, if_neg hlen, DecodeResult.ok.injEq] at h
        obtain ⟨rfl, rfl⟩ := h
        exact ⟨op, hd, tail.take hd.immBytes, by rw [List.take_append_drop], hop,
          List.length_take_of_le (Nat.not_lt.1 hlen), rfl⟩

/-- LE32 in natural numbers (R10, R39). -/
theorem toNat_le32 (b0 b1 b2 b3 : Byte) :
    (le32 b0 b1 b2 b3).toNat = b0.toNat + 256 * b1.toNat + 65536 * b2.toNat + 16777216 * b3.toNat := by
  rw [le32, BitVec.toNat_append, BitVec.toNat_append, BitVec.toNat_append, ← Nat.shiftLeft_add_eq_or_of_lt b0.isLt,
    ← Nat.shiftLeft_add_eq_or_of_lt b1.isLt, ← Nat.shiftLeft_add_eq_or_of_lt b2.isLt]
  simp only [Nat.shiftLeft_eq]
  omega

/-- LE32 keeps every bit of its four bytes. -/
theorem imm32Bytes_le32 (b0 b1 b2 b3 : Byte) : imm32Bytes (le32 b0 b1 b2 b3) = [b0, b1, b2, b3] := by
  have h0 := b0.isLt
  have h1 := b1.isLt
  have h2 := b2.isLt
  have h3 := b3.isLt
  simp only [imm32Bytes_eq_leBytes, leBytes, toNat_le32, List.cons.injEq, and_true]
  refine ⟨?_, ?_, ?_, ?_⟩ <;> apply BitVec.eq_of_toNat_eq <;> rw [BitVec.toNat_ofNat] <;> omega

theorem immediatesOf_withImmediates {h : Head} {ib : List Byte} (hib : ib.length = h.immBytes) :
    immediatesOf (h.withImmediates ib) = ib := by
  cases h with
  | aptr | mvi8 =>
    obtain ⟨b, rfl⟩ := List.length_eq_one_iff.1 hib
    rfl
  | jez | jnz | mvi32 =>
    match ib, hib with
    | [b0, b1, b2, b3], _ => exact imm32Bytes_le32 b0 b1 b2 b3
  | _ => exact (List.length_eq_zero_iff.1 hib).symm

/-- Settles O30: the opcode byte is the encoder's (opcodeOf_of_decodeOpcode), and no immediate bit is ignored. -/
theorem encodeInvertsDecode : Obligations.EncodeInvertsDecode := by
  intro bs i rest h
  obtain ⟨op, hd, ib, rfl, hop, hib, rfl⟩ := eq_cons_of_decode_ok h
  rw [encode, opcodeOf_of_decodeOpcode hop, immediatesOf_withImmediates hib, List.cons_append]

/-! ## The bytes without an instruction, and sample words -/

theorem decodeOpcode_eq_none_iff_decodeR56 (op : Byte) : decodeOpcode op = none ↔ decodeR56 op.toNat = none := by
  rw [← decodeOpcodeIsTheSpecsFunction op, Option.map_eq_none_iff]

/-- Settles O27: the two ways the spec gives the unrecognized bytes, R56 and R61, agree on each of the 256. -/
theorem unrecognizedBytesAreExactlyTheListed : Obligations.UnrecognizedBytesAreExactlyTheListed := by
  have tables : ∀ op : Byte, decodeR56 op.toNat = none ↔ unrecognized op.toNat = true := by decide
  exact ⟨fun op => (decodeOpcode_eq_none_iff_decodeR56 op).trans (tables op), rfl⟩

/-- Settles O28: each word is the encoding of its instruction, so decoding gives it back. -/
theorem sampleEncodingsDecode : Obligations.SampleEncodingsDecode :=
  ⟨decodeInvertsEncode .halt [], decodeInvertsEncode .cmp [0x01], decodeInvertsEncode (.aptr 0xFF) [],
    decodeInvertsEncode (.jez 0x3A) [], decodeInvertsEncode (.mv8 .a .ptrC) [],
    decodeInvertsEncode (.mvi8 .b 0x48) [], decodeInvertsEncode (.mv32 .ptr .lb) [],
    decodeInvertsEncode (.mvi32 .la 0x12345678) []⟩

end Sys2Proof.Proofs

/-! PROOFS. The fetch and the step it leads to (30_encoding.md R59, 40_dispatch.md R68): what the bytes at pc make the
next step be, an instruction or an abort. -/

namespace Sys2Proof.Proofs

open Sys2Proof.Machine Sys2Proof.Spec

/-! ## The bytes at pc -/

theorem toNat_nextPc (s : State) (k : Nat) : (nextPc s k).toNat = (s.pc.toNat + k) % 2 ^ 32 := by
  rw [nextPc, BitVec.toNat_ofNat, Nat.mod_mod]

/-- The address of a byte at pc is the pc advanced. -/
theorem read_nextPc_of_bytesAtPc {s : State} {bs : List Byte} {k : Nat} (h : bytesAtPc s bs) (hk : k < bs.length) :
    s.mem.read (nextPc s k).toNat = bs[k]? := by
  rw [toNat_nextPc]
  exact h k hk

theorem read_pc_of_bytesAtPc {s : State} {op : Byte} {bs : List Byte} (h : bytesAtPc s (op :: bs)) :
    s.mem.read s.pc.toNat = some op := by
  have h0 := h 0 (Nat.zero_lt_succ _)
  rwa [Nat.add_zero, Nat.mod_eq_of_lt s.pc.isLt] at h0

/-- Immediate bytes that are all there are fetched. -/
theorem fetchBytes_of_read {s : State} {addr : Word} {ib : List Byte}
    (h : ∀ k < ib.length, s.mem.read (addr + BitVec.ofNat 32 k).toNat = ib[k]?) :
    fetchBytes s addr ib.length = .ok ib := by
  cases hf : fetchBytes s addr ib.length with
  | ok ib' =>
    obtain ⟨hlen, hread⟩ := fetchBytes_ok hf
    refine congrArg Except.ok (List.ext_getElem? fun k => ?_)
    by_cases hk : k < ib.length
    · rw [← hread k hk, h k hk]
    · rw [List.getElem?_eq_none (by omega), List.getElem?_eq_none (by omega)]
  | error e =>
    obtain ⟨k, hk, hoob, -, -⟩ := fetchBytes_error hf
    have hsome := (h k hk).trans (List.getElem?_eq_getElem hk)
    exact absurd (Memory.read_eq_some_lt hsome) (Nat.not_lt.2 hoob)

/-- The fetch of an instruction whose bytes stand at pc. -/
theorem fetch_of_bytesAtPc {s : State} {i : Instr} (h : bytesAtPc s (encode i)) : fetch s = .ok i := by
  have hib : fetchBytes s (s.pc + 1#32) (headOf i).immBytes = .ok (immediatesOf i) := by
    rw [← length_immediatesOf]
    refine fetchBytes_of_read fun k hk => ?_
    rw [pc_succ_add_eq_nextPc, read_nextPc_of_bytesAtPc h (Nat.succ_lt_succ hk), encode, List.getElem?_cons_succ]
  simp only [fetch, memRead_ok.2 (read_pc_of_bytesAtPc h), decodeOpcode_opcodeOf, hib, withImmediates_immediatesOf]

theorem bytesAtPc_of_append {s : State} {bs rest : List Byte} (h : bytesAtPc s (bs ++ rest)) : bytesAtPc s bs := by
  intro k hk
  rw [h k (by rw [List.length_append]; omega), List.getElem?_append_left hk]

/-! ## The step -/

theorem step_of_fetch_ok {s : State} {i : Instr} (hrun : s.status = .running) (h : fetch s = .ok i) :
    step s = exec i s := by
  simp only [step, hrun, h]

/-- Settles O32: the bytes that decode to i are its encoding (O30), so i is what is fetched. -/
theorem stepRunsTheDecodedInstruction : Obligations.StepRunsTheDecodedInstruction := by
  intro s i bs rest hrun hbytes hdec
  obtain rfl := encodeInvertsDecode bs i rest hdec
  exact step_of_fetch_ok hrun (fetch_of_bytesAtPc (bytesAtPc_of_append hbytes))

/-- The fetch of an opcode and four bytes that an instruction has as its imm32. -/
theorem fetch_of_five_bytes {s : State} {op b1 b2 b3 b4 : Byte} {i : Instr} (h : bytesAtPc s [op, b1, b2, b3, b4])
    (hop : opcodeOf i = op) (hib : immediatesOf i = imm32Bytes (le32 b1 b2 b3 b4)) : fetch s = .ok i := by
  apply fetch_of_bytesAtPc
  rwa [encode, hop, hib, imm32Bytes_le32]

/-- Settles O31: the five bytes are the encoding of the instruction whose immediate is their LE32. -/
theorem fetchAssemblesLittleEndian : Obligations.FetchAssemblesLittleEndian := by
  intro s op b1 b2 b3 b4 h
  have value := toNat_le32 b1 b2 b3 b4
  refine ⟨?jez, ?jnz, ?mvi32⟩
  case jez => rintro rfl; exact ⟨_, fetch_of_five_bytes h rfl rfl, value⟩
  case jnz => rintro rfl; exact ⟨_, fetch_of_five_bytes h rfl rfl, value⟩
  case mvi32 => rintro dst rfl; exact ⟨_, fetch_of_five_bytes h (opcodeOf_mvi32 dst _) rfl, value⟩

/-! ## The aborts of a fetch -/

/-- The abort of R101 in the statements' words. -/
theorem takeAbort_eq_abortState (s : State) (r : Raise) (op : Option Byte) :
    s.takeAbort r op = abortState s r.cause r.access op r.addr := rfl

theorem fetch_of_pc_oob {s : State} (h : s.mem.size ≤ s.pc.toNat) :
    fetch s = .error (Raise.outOfBounds .fetchOpcode s.pc, none) := by
  have herr : memRead .fetchOpcode s s.pc = .error (Raise.outOfBounds .fetchOpcode s.pc) := memRead_error.2 ⟨h, rfl⟩
  simp only [fetch, herr]

theorem fetch_of_decodeOpcode_eq_none {s : State} {op : Byte} (hop : s.mem.read s.pc.toNat = some op)
    (hdec : decodeOpcode op = none) : fetch s = .error (Raise.unrecognizedOpcode, some op) := by
  simp only [fetch, memRead_ok.2 hop, hdec]

/-- Settles O34: the opcode is the first byte fetched, so its access is the one that raises. -/
theorem fetchBeyondMemoryAborts : Obligations.FetchBeyondMemoryAborts :=
  fun _ hrun hoob => step_of_fetch_error hrun (fetch_of_pc_oob hoob)

/-- A step on a listed unrecognized byte (R61, R99). -/
theorem step_of_unrecognized {s : State} {op : Byte} (hrun : s.status = .running)
    (hop : s.mem.read s.pc.toNat = some op) (hun : unrecognized op.toNat = true) :
    step s = .next (abortState s .unrecognizedOpcode none (some op) none) :=
  step_of_fetch_error hrun
    (fetch_of_decodeOpcode_eq_none hop ((unrecognizedBytesAreExactlyTheListed.1 op).2 hun))

/-- Settles O35: no immediate is read, since an unrecognized byte has no Head to ask for one. -/
theorem unrecognizedOpcodeAborts : Obligations.UnrecognizedOpcodeAborts :=
  fun _ _ hrun hop hun => step_of_unrecognized hrun hop hun

/-- The immediate fetch raises at the first missing byte and no other. -/
theorem fetchBytes_of_first_oob {s : State} {addr : Word} {n j : Nat} (hj : j < n)
    (hoob : s.mem.size ≤ (addr + BitVec.ofNat 32 j).toNat)
    (hbefore : ∀ m < j, (addr + BitVec.ofNat 32 m).toNat < s.mem.size) :
    fetchBytes s addr n = .error (Raise.outOfBounds .fetchImmediate (addr + BitVec.ofNat 32 j)) := by
  obtain ⟨a, herr⟩ := fetchBytes_raises_of_oob hj hoob
  obtain ⟨k, -, hk, hbefore', ha⟩ := fetchBytes_error herr
  obtain rfl : k = j := by
    rcases lt_trichotomy k j with hlt | heq | hgt
    · exact absurd (hbefore k hlt) (Nat.not_lt.2 hk)
    · exact heq
    · exact absurd (hbefore' j hgt) (Nat.not_lt.2 hoob)
  rw [herr, ha]

/-- Settles O36: the first missing byte of the instruction is the first missing immediate byte. -/
theorem truncatedInstructionAborts : Obligations.TruncatedInstructionAborts := by
  intro s i k hrun hop hk hlen hoob hbefore
  obtain ⟨j, rfl⟩ := Nat.exists_eq_add_of_le' hk
  have hj : j < (headOf i).immBytes := by rw [length_encode] at hlen; omega
  have herr : fetchBytes s (s.pc + 1#32) (headOf i).immBytes =
      .error (Raise.outOfBounds .fetchImmediate (nextPc s (j + 1))) := by
    rw [← pc_succ_add_eq_nextPc] at hoob ⊢
    refine fetchBytes_of_first_oob hj hoob fun m hm => ?_
    rw [pc_succ_add_eq_nextPc]
    exact hbefore (m + 1) (by omega) (by omega)
  exact step_of_fetch_error hrun (fetch_of_fetchBytes_error hop (decodeOpcode_opcodeOf i) herr)

end Sys2Proof.Proofs

/-! PROOFS. What the host places and loads (70_reset_and_hazards.md R115, logs 3 and 4): the bytes read back, the
state after a load, and the invariant there. -/

namespace Sys2Proof.Proofs

open Sys2Proof.Machine Sys2Proof.Spec

/-! ## Placed bytes read back -/

/-- One byte of Memory.place. -/
def placeByte (m : Memory) (addr : Word) (v : Byte) : Memory :=
  { cells := cellsSet m.cells addr.toNat v, size := max m.size (addr.toNat + 1) }

theorem place_cons (m : Memory) (addr : Word) (v : Byte) (rest : List Byte) :
    m.place addr (v :: rest) = (placeByte m addr v).place (addr + 1#32) rest := rfl

theorem read_placeByte_same (m : Memory) (addr : Word) (v : Byte) : (placeByte m addr v).read addr.toNat = some v := by
  simp [placeByte, Memory.read]

theorem read_placeByte_of_ne {m : Memory} {addr : Word} {v w : Byte} {a : Nat} (ha : a ≠ addr.toNat)
    (h : m.read a = some w) : (placeByte m addr v).read a = some w := by
  have hlt := Memory.read_eq_some_lt h
  rw [← h]
  simp [placeByte, Memory.read, ha, hlt]

theorem add_ofNat_succ (addr : Word) (k : Nat) :
    addr + BitVec.ofNat 32 (k + 1) = addr + 1#32 + BitVec.ofNat 32 k := by
  rw [BitVec.add_assoc, ← BitVec.ofNat_add, Nat.add_comm]

/-- A byte that is there and is not placed over keeps its value. -/
theorem read_place_of_ne {m : Memory} {addr : Word} {bytes : List Byte} {a : Nat} {v : Byte} (h : m.read a = some v)
    (hne : ∀ k < bytes.length, (addr + BitVec.ofNat 32 k).toNat ≠ a) : (m.place addr bytes).read a = some v := by
  induction bytes generalizing m addr with
  | nil => exact h
  | cons w rest ih =>
    have h0 := hne 0 (Nat.zero_lt_succ _)
    rw [BitVec.add_zero] at h0
    refine ih (read_placeByte_of_ne h0.symm h) fun k hk => ?_
    rw [← add_ofNat_succ]
    exact hne (k + 1) (Nat.succ_lt_succ hk)

/-- Bytes that do not wrap onto themselves read back as they were placed. -/
theorem read_place {m : Memory} {addr : Word} {bytes : List Byte} (hlen : bytes.length ≤ 2 ^ 32) {k : Nat}
    (hk : k < bytes.length) : (m.place addr bytes).read (addr + BitVec.ofNat 32 k).toNat = bytes[k]? := by
  induction bytes generalizing m addr k with
  | nil => cases hk
  | cons v rest ih =>
    rw [List.length_cons] at hlen hk
    cases k with
    | zero =>
      rw [BitVec.add_zero, place_cons]
      refine read_place_of_ne (read_placeByte_same m addr v) fun j hj heq => ?_
      rw [← add_ofNat_succ, BitVec.toNat_add, BitVec.toNat_ofNat] at heq
      have := addr.isLt
      omega
    | succ k =>
      rw [add_ofNat_succ, place_cons, ih (by omega) (by omega), List.getElem?_cons_succ]

theorem length_bytesOfNat (n w : Nat) : (bytesOfNat n w).length = n := by
  induction n generalizing w with
  | zero => rfl
  | succ n ih => rw [bytesOfNat, List.length_cons, ih]

theorem length_tableWordBytes (nbits w : Nat) : (tableWordBytes nbits w).length = maxInstrBytes :=
  length_bytesOfNat _ _

theorem bytesAtPc_withFetchWord (s : State) (nbits w : Nat) :
    bytesAtPc (s.withFetchWord nbits w) (tableWordBytes nbits w) := by
  intro k hk
  have hshort : (tableWordBytes nbits w).length ≤ 2 ^ 32 := by rw [length_tableWordBytes, maxInstrBytes]; omega
  have hread := read_place (m := s.mem) (addr := s.pc) hshort hk
  rwa [BitVec.toNat_add, BitVec.toNat_ofNat, Nat.add_mod_mod] at hread

theorem decode_of_decodeTableWord {nbits w : Nat} {i : Instr} (h : decodeTableWord nbits w = some i) :
    ∃ rest, decode (tableWordBytes nbits w) = .ok i rest := by
  unfold decodeTableWord at h
  split at h
  · obtain rfl := Option.some.inj h
    exact ⟨_, ‹_›⟩
  · cases h

/-- Settles O33: the placed bytes stand at pc, and the machine is RUNNING there. -/
theorem placedWordIsTheNextInstruction : Obligations.PlacedWordIsTheNextInstruction := by
  intro s nbits w i h
  obtain ⟨rest, hdec⟩ := decode_of_decodeTableWord h
  exact stepRunsTheDecodedInstruction _ i _ rest rfl (bytesAtPc_withFetchWord s nbits w) hdec

/-! ## Load -/

theorem read_ofImage (image : List Byte) (k : Nat) : (Memory.ofImage image).read k = image[k]? := by
  by_cases hk : k < image.length
  · simp [Memory.ofImage, Memory.read, cellsGet_cellsFrom, hk]
  · simp [Memory.ofImage, Memory.read, hk]

theorem load_of_length_le {image : List Byte} (cap : Option Nat) (h : image.length ≤ 2 ^ 32) :
    load image cap = .next { State.reset with mem := Memory.ofImage image, outCapacity := cap } := if_pos h

/-- Settles O46: load's one check of the image is its length. -/
theorem loadRefusesTooLongImages : Obligations.LoadRefusesTooLongImages :=
  fun _ _ h => if_neg (Nat.not_le.2 h)

/-- Settles O45: the registers are those of State.reset, the memory the image's. -/
theorem loadSetsEveryElement : Obligations.LoadSetsEveryElement := by
  intro image cap h
  refine ⟨_, load_of_length_le cap h, rfl, read_ofImage image, fun r hr => ?r8, fun r hr => ?r32, rfl, rfl, rfl, rfl,
    rfl⟩
  case r8 =>
    cases r with
    | ptrC => exact absurd rfl hr
    | _ => rfl
  case r32 =>
    cases r with
    | pc => exact absurd rfl hr
    | _ => rfl

/-- Settles O49: nothing has been put out or recorded, and the image's memory is canonical (Memory.wf_ofImage). -/
theorem invariantHoldsAfterLoad : Obligations.InvariantHoldsAfterLoad := by
  intro image cap t h
  by_cases hlen : image.length ≤ 2 ^ 32
  · obtain rfl := Host.Outcome.next.inj ((load_of_length_le cap hlen).symm.trans h)
    exact ⟨Memory.wf_ofImage hlen, fun _ _ => Nat.zero_le _, ⟨nofun, fun hne => absurd rfl hne⟩, nofun⟩
  · rw [loadRefusesTooLongImages image cap (Nat.not_le.1 hlen)] at h
    cases h

/-! ## Reset -/

theorem load_nil : load [] Config.outCapacityDefault = .next State.reset := rfl

/-- Settles O47: the empty memory has no byte at pc, so the first step is that of O34. -/
theorem resetIsTheLoadOfTheEmptyImage : Obligations.ResetIsTheLoadOfTheEmptyImage :=
  ⟨load_nil, fetchBeyondMemoryAborts State.reset rfl (Nat.zero_le _)⟩

/-- Settles O48: reset is a load (O47). -/
theorem invariantHoldsAtReset : Obligations.InvariantHoldsAtReset :=
  invariantHoldsAfterLoad [] _ _ load_nil

end Sys2Proof.Proofs

/-! PROOFS. What every instruction leaves unchanged and where it may abort, one lemma per part of the state, each read
off the cases of Ran. -/

namespace Sys2Proof.Proofs

open Sys2Proof.Machine Sys2Proof.Spec

/-! ## The output buffer -/

theorem out_of_write8_ok {s u : State} {r : Reg8} {v : Byte} (h : write8 s r v = .ok u) : u.out = s.out := by
  obtain ⟨-, ⟨hout, -⟩, -⟩ := frame_of_write8_ok h
  exact hout

@[simp] theorem out_write32 (s : State) (size : Nat) (r : Reg32) (v : Word) : (write32 s size r v).out = s.out := by
  cases r <;> rfl

/-- OUT with room is the one way to write the output buffer. -/
theorem out_of_ran {s t : State} {i : Instr} (h : Ran s i t) :
    t.out = s.out ∨ (i = .out ∧ s.outFull = false ∧ t.out = s.out ++ [s.a]) := by
  cases h with
  | out room => exact .inr ⟨rfl, room, rfl⟩
  | halt | outFull | cmp | add | sub | xor | aptr | jez | jnz | mv8Read | mv8Write | mvi8Write => exact .inl rfl
  | mv8 _ _ _ _ _ hw | mvi8 _ _ _ hw => exact .inl ((State.setPc_out _ _).trans (out_of_write8_ok hw))
  | mv32 | mvi32 => exact .inl (out_write32 s _ _ _)

/-- Settles O8: the two cases of out_of_ran. -/
theorem onlyOutWritesTheOutputBuffer : Obligations.OnlyOutWritesTheOutputBuffer := by
  intro i s t h
  obtain hout | ⟨hi, -, hout⟩ := out_of_ran (exec_next h)
  · exact ⟨fun _ => hout, fun _ => .inl hout⟩
  · exact ⟨fun hne => absurd hi hne, fun _ => .inr hout⟩

theorem outCapacity_of_ran {s t : State} {i : Instr} (h : Ran s i t) : t.outCapacity = s.outCapacity := by
  cases h with
  | mv8 _ _ _ _ _ hw | mvi8 _ _ _ hw =>
    obtain ⟨-, ⟨-, hcap⟩, -⟩ := frame_of_write8_ok hw
    exact hcap
  | mv32 dst | mvi32 dst => cases dst <;> rfl
  | _ => rfl

/-! ## The registers -/

/-- A 32-bit register other than pc that the access table does not give the instruction to write keeps its value. -/
theorem x32_of_writes32_eq_false {s t : State} {i : Instr} {r : Reg32} (h : Ran s i t) (hw : writes32 i r = false) :
    x32 t r = x32 s r := by
  cases h with
  | aptr =>
    cases r with
    | ptr => cases hw
    | _ => rfl
  | mv8 _ _ _ _ _ hu | mvi8 _ _ _ hu => rw [x32_setPc, (frame_of_write8_ok hu).1 r]
  | mv32 | mvi32 => exact x32_write32_of_ne (by simpa [writes32] using hw)
  | _ => cases r <;> rfl

/-- Settles O20: the frames of the two register files. -/
theorem registersChangeOnlyAsListed : Obligations.RegistersChangeOnlyAsListed :=
  fun _ _ _ h => ⟨fun _ => x8_of_writes8_eq_false (exec_next h), fun _ => x32_of_writes32_eq_false (exec_next h)⟩

/-! ## Memory -/

theorem mem_of_write8_ok {s u : State} {dst : Reg8} {v : Byte} (h : write8 s dst v = .ok u) :
    u.mem = s.mem ∨ (dst = .ptrC ∧ s.mem.write (ptrCAddr s).toNat v = some u.mem) := by
  cases dst with
  | ptrC =>
    obtain ⟨m, hm, rfl⟩ := memWrite_ok h
    exact .inr ⟨rfl, hm⟩
  | _ => cases h; exact .inl rfl

/-- An instruction keeps the memory, or it is a store and writes one byte at the ptr_c address of the state before. -/
theorem mem_of_ran {s t : State} {i : Instr} (h : Ran s i t) :
    t.mem = s.mem ∨ (stores i = true ∧ ∃ v, s.mem.write (ptrCAddr s).toNat v = some t.mem) := by
  cases h with
  | mv8 _ _ v _ _ hw | mvi8 _ v _ hw =>
    obtain hmem | ⟨rfl, hmem⟩ := mem_of_write8_ok hw
    · exact .inl hmem
    · exact .inr ⟨rfl, v, hmem⟩
  | mv32 dst | mvi32 dst => cases dst <;> exact .inl rfl
  | _ => exact .inl rfl

/-- Settles O21: the one byte that a store writes is inside the bounds (Memory.write_eq_some). -/
theorem onlyPtrCMovesWriteMemory : Obligations.OnlyPtrCMovesWriteMemory := by
  intro i s t h
  have hcap := outCapacity_of_ran (exec_next h)
  obtain hmem | ⟨hstores, v, hmem⟩ := mem_of_ran (exec_next h)
  · rw [hmem]
    exact ⟨rfl, hcap, fun _ _ => rfl, fun _ _ => rfl⟩
  · obtain ⟨-, hsize, -, hother⟩ := Memory.write_eq_some hmem
    exact ⟨hsize, hcap, fun hno => absurd hstores (by simp [hno]), hother⟩

/-! ## The status and the fault record -/

/-- Where ABORTED comes from, with the abort that was taken (60_exceptions.md, table of faults per instruction). -/
theorem abort_cases_of_ran {s t : State} {i : Instr} (h : Ran s i t) (hs : s.status = .running)
    (ht : t.status = .aborted) :
    (i = .out ∧ s.outFull = true ∧ t = s.takeAbort Raise.outputOverflow (some (opcodeOf i))) ∨
    (s.mem.size ≤ (ptrCAddr s).toNat ∧
      ((∃ dst, i = .mv8 dst .ptrC ∧
          t = s.takeAbort (Raise.outOfBounds .dataRead (ptrCAddr s)) (some (opcodeOf i))) ∨
       (∃ src, src ≠ .ptrC ∧ i = .mv8 .ptrC src ∧
          t = s.takeAbort (Raise.outOfBounds .dataWrite (ptrCAddr s)) (some (opcodeOf i))) ∨
       (∃ v, i = .mvi8 .ptrC v ∧
          t = s.takeAbort (Raise.outOfBounds .dataWrite (ptrCAddr s)) (some (opcodeOf i))))) := by
  cases h with
  | outFull full => exact .inl ⟨rfl, full, rfl⟩
  | mv8Read dst oob => exact .inr ⟨oob, .inl ⟨dst, rfl, rfl⟩⟩
  | mv8Write src hsrc oob => exact .inr ⟨oob, .inr (.inl ⟨src, hsrc, rfl, rfl⟩)⟩
  | mvi8Write v oob => exact .inr ⟨oob, .inr (.inr ⟨v, rfl, rfl⟩)⟩
  | halt => cases ht
  | out | cmp | add | sub | xor | aptr | jez | jnz => cases hs.symm.trans ht
  | mv8 _ _ _ _ _ hw | mvi8 _ _ _ hw => cases (hs.symm.trans (status_of_write8_ok hw).symm).trans ht
  | mv32 | mvi32 => cases (hs.symm.trans (status_write32 s _ _ _).symm).trans ht

/-- Settles O40: each way to abort, with what the abort leaves. -/
theorem onlyListedInstructionsAbort : Obligations.OnlyListedInstructionsAbort := by
  intro i s t hs h ht
  obtain ⟨hi, hfull, rfl⟩ | ⟨hoob, ⟨dst, hi, rfl⟩ | ⟨src, hsrc, hi, rfl⟩ | ⟨v, hi, rfl⟩⟩ :=
    abort_cases_of_ran (exec_next h) hs ht
  · exact .inl ⟨hi, outFull_iff.1 hfull, abortedWith_takeAbort s _ _⟩
  · exact .inr ⟨hoob, .inl ⟨dst, hi, abortedWith_takeAbort s _ _⟩⟩
  · exact .inr ⟨hoob, .inr (.inl ⟨src, hsrc, hi, abortedWith_takeAbort s _ _⟩)⟩
  · exact .inr ⟨hoob, .inr (.inr ⟨v, hi, abortedWith_takeAbort s _ _⟩)⟩

@[simp] theorem fault_write32 (s : State) (size : Nat) (r : Reg32) (v : Word) :
    (write32 s size r v).fault = s.fault := by
  cases r <;> rfl

/-- Only the abort writes the fault record. -/
theorem fault_of_ran {s t : State} {i : Instr} (h : Ran s i t) (ht : t.status ≠ .aborted) : t.fault = s.fault := by
  cases h with
  | outFull | mv8Read | mv8Write | mvi8Write => exact absurd rfl ht
  | mv8 _ _ _ _ _ hw | mvi8 _ _ _ hw =>
    obtain ⟨-, -, -, hfault⟩ := frame_of_write8_ok hw
    exact hfault
  | mv32 | mvi32 => exact fault_write32 s _ _ _
  | _ => rfl

/-- HALT is the one instruction that ends HALTED. -/
theorem halted_iff_of_ran {s t : State} {i : Instr} (h : Ran s i t) (hs : s.status = .running) :
    t.status = .halted ↔ i = .halt := by
  cases h with
  | halt => exact ⟨fun _ => rfl, fun _ => rfl⟩
  | outFull | mv8Read | mv8Write | mvi8Write => simp
  | mv8 _ _ _ _ _ hw | mvi8 _ _ _ hw => simp [status_of_write8_ok hw, hs]
  | _ => simp [hs]

/-! ## The next pc -/

/-- A completed instruction's next pc is the selected one (R75). -/
theorem pc_of_ran {s t : State} {i : Instr} (h : Ran s i t) (ht : t.status ≠ .aborted) : t.pc = nextPcOf i s := by
  cases h with
  | outFull | mv8Read | mv8Write | mvi8Write => exact absurd rfl ht
  | halt | out | cmp | add | sub | xor | mv8 => exact pcAdv_eq_nextPc s 1
  | aptr | mvi8 => exact pcAdv_eq_nextPc s 2
  | jez | jnz => rw [State.setPc_pc, pcAdv_eq_nextPc, nextPcOf]
  | mv32 dst src =>
    rw [read32_one_eq_source32]
    cases dst with
    | pc => rfl
    | _ => exact pc_write32_of_ne nofun
  | mvi32 dst =>
    cases dst with
    | pc => rfl
    | _ => exact pc_write32_of_ne nofun

/-- Settles O15: the selection of R75, and pc among what the abort leaves (R76). -/
theorem nextPcIsSelectedAsListed : Obligations.NextPcIsSelectedAsListed := by
  intro i s t hs h
  refine ⟨pc_of_ran (exec_next h), fun ht => ?_⟩
  obtain ⟨e, op, rfl⟩ := takeAbort_of_ran_aborted (exec_next h) (by simp [hs]) ht
  exact State.takeAbort_pc s e op

end Sys2Proof.Proofs

/-! PROOFS. OUT, APTR and the jumps as exact next states, the aborts of the data accesses, and the stores into
bytes that are fetched
(41_output_halt.md, 43_pointer.md, 44_branch.md, 45_move.md, 70_reset_and_hazards.md section 2). -/

namespace Sys2Proof.Proofs

open Sys2Proof.Machine Sys2Proof.Spec

/-! ## Exact next states -/

theorem exec_out_of_room {s : State} (room : s.outFull = false) :
    exec .out s = .next { s with out := s.out ++ [s.a], pc := nextPc s 1 } := by
  have harm : exec .out s = .next ((s.pushOut s.a).setPc (s.pcAdv 1)) := by
    simp only [exec, execOut, room, commitOrAbort, State.advance_eq, State.pushOut_pcAdv, if_neg Bool.false_ne_true]
  rw [harm, pcAdv_eq_nextPc]
  rfl

theorem exec_out_of_full {s : State} (full : s.outFull = true) :
    exec .out s = .next (s.takeAbort Raise.outputOverflow (some 0x02)) := by
  simp only [exec, execOut, full, commitOrAbort, if_pos, opcodeOf]

/-- Settles O6: a capacity other than the length of the buffer is room (R82). -/
theorem outAppendsTheAccumulator : Obligations.OutAppendsTheAccumulator := by
  intro s hcap
  have room : s.outFull = false := Bool.eq_false_iff.2 fun full => hcap (outFull_iff.1 full)
  exact ⟨rfl, exec_out_of_room room⟩

/-- Settles O7: a capacity that is the length of the buffer is full (R82). -/
theorem outOnAFullBufferAborts : Obligations.OutOnAFullBufferAborts :=
  fun _ hcap => exec_out_of_full (outFull_iff.2 hcap)

/-- A byte zero-extended and added is its number from 0 to 255 added (R88). -/
theorem add_setWidth_eq_ofNat (w : Word) (v : Byte) :
    w + v.setWidth 32 = BitVec.ofNat 32 ((w.toNat + v.toNat) % 2 ^ 32) := by
  have hv := v.isLt
  apply BitVec.eq_of_toNat_eq
  rw [BitVec.toNat_add, BitVec.toNat_setWidth, BitVec.toNat_ofNat]
  omega

/-- Settles O10: zero-extending imm8 leaves its number from 0 to 255 (D10). -/
theorem aptrAddsTheUnsignedImmediate : Obligations.AptrAddsTheUnsignedImmediate := by
  intro imm8 s
  have harm : exec (.aptr imm8) s = .next ((s.setPtr (s.ptr + imm8.setWidth 32)).setPc (s.pcAdv 2)) := rfl
  refine ⟨rfl, ?_⟩
  rw [harm, pcAdv_eq_nextPc, add_setWidth_eq_ofNat]
  rfl

theorem exec_jez (imm32 : Word) (s : State) :
    exec (.jez imm32) s = .next (s.setPc (if s.f = 0 then imm32 else nextPc s 5)) := by
  obtain ⟨t, h⟩ := exec_total (.jez imm32) s
  cases exec_next h
  rw [h, pcAdv_eq_nextPc]

theorem exec_jnz (imm32 : Word) (s : State) :
    exec (.jnz imm32) s = .next (s.setPc (if s.f = 0 then nextPc s 5 else imm32)) := by
  obtain ⟨t, h⟩ := exec_total (.jnz imm32) s
  cases exec_next h
  rw [h, pcAdv_eq_nextPc]

theorem encode_jez (imm32 : Word) : encode (.jez imm32) = 0x21 :: leBytes imm32 :=
  congrArg (List.cons 0x21) (imm32Bytes_eq_leBytes imm32)

theorem encode_jnz (imm32 : Word) : encode (.jnz imm32) = 0x22 :: leBytes imm32 :=
  congrArg (List.cons 0x22) (imm32Bytes_eq_leBytes imm32)

/-- Settles O11: a jump writes pc alone (R89). -/
theorem jezJumpsWhenFlagIsZero : Obligations.JezJumpsWhenFlagIsZero :=
  fun imm32 s => ⟨encode_jez imm32, exec_jez imm32 s⟩

/-- Settles O12: taken for every nonzero f (R90). -/
theorem jnzJumpsWhenFlagIsNotZero : Obligations.JnzJumpsWhenFlagIsNotZero :=
  fun imm32 s => ⟨encode_jnz imm32, exec_jnz imm32 s⟩

/-! ## The aborts of the data accesses (R98, R102) -/

/-- Settles O37: DATA_READ comes first, whatever the destination is. -/
theorem dataReadOutOfBoundsAborts : Obligations.DataReadOutOfBoundsAborts := by
  intro dst s hoob
  obtain ⟨t, h⟩ := exec_total (.mv8 dst .ptrC) s
  have ht := takeAbort_of_ran_mv8_read_oob (exec_next h) hoob
  rw [opcodeOf_mv8] at ht
  rw [h, ht, takeAbort_eq_abortState]
  rfl

/-- Settles O38: the source of MV8 is a stored register, so its read does not raise before the write. -/
theorem dataWriteOutOfBoundsAborts : Obligations.DataWriteOutOfBoundsAborts := by
  refine fun s hoob => ⟨fun src hsrc => ?mv8, fun imm8 => ?mvi8⟩
  case mv8 =>
    obtain ⟨t, h⟩ := exec_total (.mv8 .ptrC src) s
    have ht := takeAbort_of_ran_mv8_write_oob (exec_next h) hsrc hoob
    rw [opcodeOf_mv8] at ht
    rw [h, ht, takeAbort_eq_abortState]
    rfl
  case mvi8 =>
    obtain ⟨t, h⟩ := exec_total (.mvi8 .ptrC imm8) s
    rw [h, takeAbort_of_ran_mvi8_write_oob (exec_next h) hoob, takeAbort_eq_abortState]
    rfl

/-! ## A store into a byte that is fetched (20_memory.md section 5) -/

/-- A store of v inside the bounds completes with v at the ptr_c address, pc past the instruction and the rest as
before. -/
theorem completed_of_storesByte {i : Instr} {v : Byte} {s t : State} (h : Ran s i t) (hv : storesByte i s v)
    (hin : (ptrCAddr s).toNat < s.mem.size) :
    wrote8 s t .ptrC v ∧ t.pc = nextPc s (encode i).length ∧ same32 s t ∧ sameOut s t ∧ sameRun s t := by
  obtain rfl | ⟨src, rfl, hsrc⟩ := hv
  · obtain ⟨u, hu, ht⟩ := write8_ok_of_ran_mvi8 h fun _ => hin
    exact completed_of_write8_ok hu ht
  · obtain ⟨u, hu, ht⟩ := write8_ok_of_ran_mv8 h hsrc fun _ => hin
    exact completed_of_write8_ok hu ht

/-- Settles O55: the bytes are fetched before the store, whose address is one of theirs and so inside the bounds. -/
theorem selfOverwritingStoreUsesTheFetchedBytes : Obligations.SelfOverwritingStoreUsesTheFetchedBytes := by
  intro i v s k hrun hbytes hv hk haddr
  obtain ⟨t, h⟩ := exec_total i s
  have hread := (read_nextPc_of_bytesAtPc hbytes hk).trans (List.getElem?_eq_getElem hk)
  rw [← haddr] at hread
  exact ⟨t, (step_of_fetch_ok hrun (fetch_of_bytesAtPc hbytes)).trans h,
    completed_of_storesByte (exec_next h) hv (Memory.read_eq_some_lt hread)⟩

theorem nextPc_zero (s : State) : nextPc s 0 = s.pc := by
  rw [← pcAdv_eq_nextPc]
  exact BitVec.add_zero s.pc

theorem bytesAtPc_singleton {s : State} {v : Byte} (h : s.mem.read s.pc.toNat = some v) : bytesAtPc s [v] := by
  intro k hk
  obtain rfl : k = 0 := Nat.lt_one_iff.1 hk
  rwa [Nat.add_zero, Nat.mod_eq_of_lt s.pc.isLt]

theorem read_of_wrote8_ptrC {s t : State} {v : Byte} (h : wrote8 s t .ptrC v) :
    t.mem.read (ptrCAddr s).toNat = some v := by
  obtain ⟨-, -, hmem⟩ := h
  exact (hmem rfl).2.1

/-- Settles O25: 0x79 is MV8 ptr_c <- a, and its one byte is the one it stores into (O55). -/
theorem overwritingOwnOpcodeStillCompletes : Obligations.OverwritingOwnOpcodeStillCompletes := by
  intro s hrun hop haddr
  obtain ⟨t, hstep, hwrote, hrest⟩ := selfOverwritingStoreUsesTheFetchedBytes (.mv8 .ptrC .a) s.a s 0 hrun
    (bytesAtPc_singleton hop) (.inr ⟨.a, rfl, rfl⟩) (Nat.zero_lt_succ _) (haddr.trans (nextPc_zero s).symm)
  have hread := read_of_wrote8_ptrC hwrote
  rw [haddr] at hread
  exact ⟨t, hstep, hwrote, hread, hrest⟩

/-- A store that did not abort was inside the bounds, so its byte is there. -/
theorem read_of_storesByte {i : Instr} {v : Byte} {s t : State} (h : Ran s i t) (hv : storesByte i s v)
    (ht : t.status = .running) : t.mem.read (ptrCAddr s).toNat = some v := by
  by_cases hin : (ptrCAddr s).toNat < s.mem.size
  · obtain ⟨hwrote, -⟩ := completed_of_storesByte h hv hin
    exact read_of_wrote8_ptrC hwrote
  · have hoob := Nat.not_lt.1 hin
    obtain rfl | ⟨src, rfl, hsrc⟩ := hv
    · rw [takeAbort_of_ran_mvi8_write_oob h hoob] at ht
      cases ht
    · by_cases hptr : src = .ptrC
      · subst hptr
        exact absurd (Memory.read_eq_some_lt hsrc) hin
      · rw [takeAbort_of_ran_mv8_write_oob h hptr hoob] at ht
        cases ht

/-- The opcode of a fetch that raises is the byte at pc, if there is one (R97). -/
theorem opcode_of_fetch_error {s : State} {v : Byte} {e : Raise} {op : Option Byte}
    (hread : s.mem.read s.pc.toNat = some v) (h : fetch s = .error (e, op)) : op = some v := by
  obtain ⟨hoob, -, -⟩ | ⟨w, hw, rfl, -⟩ := fetch_error h
  · exact absurd (Memory.read_eq_some_lt hread) (Nat.not_lt.2 hoob)
  · exact hw.symm.trans hread

/-- Settles O24: the stored byte is in the memory of the next state, and everything else is said of any state with
that byte at pc. -/
theorem nextFetchSeesTheStoredByte : Obligations.NextFetchSeesTheStoredByte := by
  intro i v s t hv h ht
  have hread := read_of_storesByte (exec_next h) hv ht
  refine ⟨fun access => memRead_ok.2 hread, fun hpc => ?_⟩
  rw [← hpc] at hread
  refine ⟨fun j hj => ?fetched, fun e op herr => opcode_of_fetch_error hread herr, fun j hj => ?runs,
    step_of_unrecognized ht hread⟩
  case fetched => exact Option.some.inj ((read_pc_of_fetch_ok hj).symm.trans hread)
  case runs => exact step_of_fetch_ok ht (fetch_of_bytesAtPc (hj ▸ bytesAtPc_singleton hread))

end Sys2Proof.Proofs

/-! PROOFS. Runs and what the host sees of them (40_dispatch.md R79, R80; 70_reset_and_hazards.md R124): how a step
changes the status, and what holds after any budget. -/

namespace Sys2Proof.Proofs

open Sys2Proof.Machine Sys2Proof.Spec

/-! ## The status of a step -/

/-- HALT's opcode is no other instruction's. -/
theorem opcodeOf_eq_halt_iff {i : Instr} : opcodeOf i = 0x01 ↔ i = .halt := by
  refine ⟨fun h => ?_, by rintro rfl; rfl⟩
  have hdec := decodeOpcode_opcodeOf i
  rw [h, show decodeOpcode 0x01 = some .halt from rfl] at hdec
  cases i <;> cases hdec
  rfl

/-- A machine with HALT's opcode at pc fetches HALT: there is nothing more to fetch. -/
theorem fetch_of_read_halt {s : State} (h : s.mem.read s.pc.toNat = some 0x01) : fetch s = .ok .halt :=
  fetch_of_bytesAtPc (bytesAtPc_singleton h)

theorem halted_iff_of_step {s t : State} (h : step s = .next t) :
    t.status = .halted ↔ s.mem.read s.pc.toNat = some 0x01 := by
  obtain ⟨hrun, ⟨i, hfetch, hexec⟩ | ⟨e, op, hfetch, rfl⟩⟩ := step_next h
  · rw [halted_iff_of_ran (exec_next hexec) hrun, read_pc_of_fetch_ok hfetch, Option.some.injEq, opcodeOf_eq_halt_iff]
  · refine ⟨nofun, fun hread => ?_⟩
    cases hfetch.symm.trans (fetch_of_read_halt hread)

theorem fault_of_step {s t : State} (h : step s = .next t) (ht : t.status ≠ .aborted) : t.fault = s.fault := by
  obtain ⟨-, ⟨i, -, hexec⟩ | ⟨e, op, -, rfl⟩⟩ := step_next h
  · exact fault_of_ran (exec_next hexec) ht
  · exact absurd rfl ht

/-- Settles O42: the abort of a step is taken from the state before it (takeAbort_of_step_aborted). -/
theorem statusChangesOnlyByHaltOrFault : Obligations.StatusChangesOnlyByHaltOrFault := by
  intro s t h
  obtain ⟨hrun, -⟩ := step_next h
  refine ⟨hrun, halted_iff_of_step h, fun ht => ?_, fault_of_step h⟩
  obtain ⟨e, op, rfl⟩ := takeAbort_of_step_aborted h ht
  exact ⟨_, rfl, rfl⟩

theorem exists_step_of_running {s : State} (h : s.status = .running) : ∃ t, step s = .next t := by
  cases hf : fetch s with
  | ok i => exact step_of_fetch_ok h hf ▸ exec_total i s
  | error p => exact ⟨_, step_of_fetch_error h hf⟩

/-! ## Budgets -/

theorem runBudget_succ {s t : State} (h : step s = .next t) (n : Nat) : runBudget (n + 1) s = runBudget n t := by
  simp only [runBudget, h]

theorem runBudget_of_not_running {s : State} (h : s.status ≠ .running) (n : Nat) : runBudget n s = s := by
  cases n with
  | zero => rfl
  | succ n =>
    cases hs : step s with
    | next t => exact absurd hs (noStepAfterTheRunEnds s t h)
    | fault | refused => simp only [runBudget, hs]

/-- What holds of a state and is kept by every step holds after every budget. -/
theorem runBudget_induction {P : State → Prop} (hstep : ∀ s t, P s → step s = .next t → P t) (n : Nat) {s : State}
    (h : P s) : P (runBudget n s) := by
  induction n generalizing s with
  | zero => exact h
  | succ n ih =>
    cases hs : step s with
    | next t =>
      rw [runBudget_succ hs]
      exact ih (hstep s t h hs)
    | fault | refused => simpa only [runBudget, hs] using h

theorem out_grows_of_step {s t : State} (h : step s = .next t) : s.out <+: t.out := by
  obtain ⟨-, ⟨i, -, hexec⟩ | ⟨e, op, -, rfl⟩⟩ := step_next h
  · obtain hout | ⟨-, -, hout⟩ := out_of_ran (exec_next hexec)
    · exact ⟨[], by rw [List.append_nil, hout]⟩
    · exact ⟨[s.a], hout.symm⟩
  · exact ⟨[], List.append_nil s.out⟩

/-- Settles O9: every step leaves the output or appends to it (O8). -/
theorem outputIsNeverTakenBack : Obligations.OutputIsNeverTakenBack := by
  intro n s
  exact runBudget_induction (P := fun u => s.out <+: u.out)
    (fun _ _ hu hstep => hu.trans (out_grows_of_step hstep)) n ⟨[], List.append_nil s.out⟩

/-- A jump taken to the pc it stands at leaves the very same state. -/
theorem step_of_jump_to_itself {s : State} (hrun : s.status = .running) (hf : s.f = 0)
    (hbytes : bytesAtPc s (0x21 :: leBytes s.pc)) : step s = .next s := by
  rw [← encode_jez] at hbytes
  rw [step_of_fetch_ok hrun (fetch_of_bytesAtPc hbytes), exec_jez, if_pos hf]
  rfl

/-- Settles O14: the step changes nothing, so no number of them does. -/
theorem jumpToItselfNeverEnds : Obligations.JumpToItselfNeverEnds := by
  intro s hrun hf hbytes n
  have hself := step_of_jump_to_itself hrun hf hbytes
  have hstays : runBudget n s = s :=
    runBudget_induction (P := fun u => u = s)
      (fun u t hu hstep => Host.Outcome.next.inj (hstep.symm.trans (hu ▸ hself))) n rfl
  rw [hstays, hrun]

/-- Settles O44, by induction on the budget: the first step either ended the run, which stays so, or left it RUNNING
with the same fault record. -/
theorem budgetEndsNoRun : Obligations.BudgetEndsNoRun := by
  refine fun n s => ⟨fun h => runBudget_of_not_running h n, fun hrun => ?_⟩
  induction n generalizing s with
  | zero => exact .inl ⟨hrun, rfl, nofun⟩
  | succ n ih =>
    obtain ⟨t, hstep⟩ := exists_step_of_running hrun
    simp only [runBudget_succ hstep n]
    by_cases ht : t.status = .running
    · have hfault := fault_of_step hstep (by simp [ht])
      obtain ⟨hn, hnfault, hsteps⟩ | ⟨hn, k, hk, hkrun, hkfault, hlast⟩ := ih t ht
      · refine .inl ⟨hn, hnfault.trans hfault, fun k hk => ?_⟩
        cases k with
        | zero => rw [runBudget_succ hstep]; exact hstep
        | succ k => rw [runBudget_succ hstep, runBudget_succ hstep]; exact hsteps k (Nat.lt_of_succ_lt_succ hk)
      · refine .inr ⟨hn, k + 1, Nat.succ_lt_succ hk, ?_⟩
        rw [runBudget_succ hstep]
        exact ⟨hkrun, hkfault.trans hfault, hlast⟩
    · rw [runBudget_of_not_running ht]
      exact .inr ⟨ht, 0, Nat.zero_lt_succ n, hrun, rfl, hstep⟩

/-! ## The host's view -/

/-- Settles O43: one clause per run status. -/
theorem hostSeesOutputOnlyAfterHalt : Obligations.HostSeesOutputOnlyAfterHalt := by
  refine fun expose s => ⟨fun bytes => ?output, fun h => by rw [hostResult, h], fun h => by rw [hostResult, h]⟩
  cases h : s.status with
  | halted => rw [hostResult_of_halted h]; simp [eq_comm]
  | aborted | running => simp [hostResult, h]

end Sys2Proof.Proofs

/-! PROOFS. The invariant State.Inv is kept by every step: a completed instruction keeps each of its clauses, and each
abort writes a record that the state, unchanged otherwise, explains (60_exceptions.md R97 to R102, R112). -/

namespace Sys2Proof.Proofs

open Sys2Proof.Machine Sys2Proof.Spec

/-! ## The record of an abort -/

/-- The record that State.takeAbort writes (R97). -/
def recordOf (s : State) (e : Raise) (op : Option Byte) : FaultRecord :=
  { cause := e.cause, access := e.access, faultPc := s.pc, opcode := op, addr := e.addr }

theorem fault_takeAbort (s : State) (e : Raise) (op : Option Byte) :
    (s.takeAbort e op).fault = some (recordOf s e op) := rfl

/-- The abort changes nothing that a record is explained by (R101). -/
theorem recordLegal_takeAbort (s : State) (e : Raise) (op : Option Byte) (r : FaultRecord) :
    recordLegal (s.takeAbort e op) r = recordLegal s r := rfl

theorem recordLegal_fetchOpcode {s : State} (h : s.mem.size ≤ s.pc.toNat) :
    recordLegal s (recordOf s (Raise.outOfBounds .fetchOpcode s.pc) none) = true := by
  simp [recordLegal, recordOf, Raise.outOfBounds, Memory.read_eq_none.2 h]

theorem recordLegal_unrecognizedOpcode {s : State} {op : Byte} (hop : s.mem.read s.pc.toNat = some op)
    (hdec : decodeOpcode op = none) : recordLegal s (recordOf s Raise.unrecognizedOpcode (some op)) = true := by
  simp [recordLegal, recordOf, Raise.unrecognizedOpcode, hop, hdec]

theorem recordLegal_fetchImmediate {s : State} {op : Byte} {hd : Head} {e : Raise}
    (hop : s.mem.read s.pc.toNat = some op) (hdec : decodeOpcode op = some hd)
    (herr : fetchBytes s (s.pc + 1#32) hd.immBytes = .error e) : recordLegal s (recordOf s e (some op)) = true := by
  obtain ⟨k, hk, hoob, hbefore, rfl⟩ := fetchBytes_error herr
  have hsome : ∀ j < k, (s.mem.read (s.pc + 1#32 + BitVec.ofNat 32 j).toNat).isSome = true := fun j hj => by
    obtain ⟨w, hw⟩ := exists_read_of_lt_size (hbefore j hj)
    rw [hw, Option.isSome_some]
  simp only [recordLegal, recordOf, Raise.outOfBounds, hop, Memory.read_eq_none.2 hoob, hdec, Option.any_some,
    beq_self_eq_true, Bool.or_true, Bool.true_and, List.any_eq_true, Bool.and_eq_true, List.all_eq_true,
    List.mem_range]
  exact ⟨k, hk, beq_self_eq_true _, hsome⟩

/-- Every record that a fetch makes is legal. -/
theorem recordLegal_of_fetch_error {s : State} {e : Raise} {op : Option Byte} (h : fetch s = .error (e, op)) :
    recordLegal s (recordOf s e op) = true := by
  obtain ⟨hoob, rfl, rfl⟩ | ⟨v, hop, rfl, ⟨hdec, rfl⟩ | ⟨hd, hdec, herr⟩⟩ := fetch_error h
  · exact recordLegal_fetchOpcode hoob
  · exact recordLegal_unrecognizedOpcode hop hdec
  · exact recordLegal_fetchImmediate hop hdec herr

theorem recordLegal_outputOverflow {s : State} (hop : s.mem.read s.pc.toNat = some 0x02) (hfull : s.outFull = true) :
    recordLegal s (recordOf s Raise.outputOverflow (some 0x02)) = true := by
  simp [recordLegal, recordOf, Raise.outputOverflow, hop, hfull]

theorem recordLegal_dataRead {s : State} {dst : Reg8}
    (hop : s.mem.read s.pc.toNat = some (opcodeOf (.mv8 dst .ptrC))) (hoob : s.mem.size ≤ (ptrCAddr s).toNat) :
    recordLegal s (recordOf s (Raise.outOfBounds .dataRead (ptrCAddr s)) (some (opcodeOf (.mv8 dst .ptrC)))) =
      true := by
  simp [recordLegal, recordOf, Raise.outOfBounds, hop, Memory.read_eq_none.2 hoob, headOf]

theorem recordLegal_dataWrite_mv8 {s : State} {src : Reg8} (hsrc : src ≠ .ptrC)
    (hop : s.mem.read s.pc.toNat = some (opcodeOf (.mv8 .ptrC src))) (hoob : s.mem.size ≤ (ptrCAddr s).toNat) :
    recordLegal s (recordOf s (Raise.outOfBounds .dataWrite (ptrCAddr s)) (some (opcodeOf (.mv8 .ptrC src)))) =
      true := by
  simp [recordLegal, recordOf, Raise.outOfBounds, hop, Memory.read_eq_none.2 hoob, headOf, hsrc]

theorem recordLegal_dataWrite_mvi8 {s : State} {v w : Byte}
    (hop : s.mem.read s.pc.toNat = some (opcodeOf (.mvi8 .ptrC v)))
    (himm : s.mem.read (s.pc + 1#32).toNat = some w) (hoob : s.mem.size ≤ (ptrCAddr s).toNat) :
    recordLegal s (recordOf s (Raise.outOfBounds .dataWrite (ptrCAddr s)) (some (opcodeOf (.mvi8 .ptrC v)))) =
      true := by
  have hsome : (s.mem.read (s.pc + 1#32).toNat).isSome = true := by rw [himm, Option.isSome_some]
  simpa [recordLegal, recordOf, Raise.outOfBounds, hop, Memory.read_eq_none.2 hoob, headOf] using hsome

/-- A fetched MVI8 has its immediate byte in memory. -/
theorem read_immediate_of_fetch_mvi8 {s : State} {dst : Reg8} {v : Byte} (h : fetch s = .ok (.mvi8 dst v)) :
    ∃ w, s.mem.read (s.pc + 1#32).toNat = some w := by
  obtain ⟨op, hd, ib, -, -, hib, hi⟩ := fetch_ok h
  cases hd <;> cases hi
  obtain ⟨hlen, hread⟩ := fetchBytes_ok hib
  have h0 := hread 0 Nat.zero_lt_one
  rw [BitVec.add_zero] at h0
  exact ⟨_, h0.trans (List.getElem?_eq_getElem (hlen ▸ Nat.zero_lt_one))⟩

/-- Every record that a fetched instruction makes is legal. -/
theorem recordLegal_of_ran {s t : State} {i : Instr} (hfetch : fetch s = .ok i) (h : Ran s i t)
    (hs : s.status = .running) (ht : t.status = .aborted) :
    ∃ e op, t = s.takeAbort e op ∧ recordLegal s (recordOf s e op) = true := by
  have hop := read_pc_of_fetch_ok hfetch
  obtain ⟨rfl, hfull, rfl⟩ | ⟨hoob, ⟨dst, rfl, rfl⟩ | ⟨src, hsrc, rfl, rfl⟩ | ⟨v, rfl, rfl⟩⟩ :=
    abort_cases_of_ran h hs ht
  · exact ⟨_, _, rfl, recordLegal_outputOverflow hop hfull⟩
  · exact ⟨_, _, rfl, recordLegal_dataRead hop hoob⟩
  · exact ⟨_, _, rfl, recordLegal_dataWrite_mv8 hsrc hop hoob⟩
  · obtain ⟨w, himm⟩ := read_immediate_of_fetch_mvi8 hfetch
    exact ⟨_, _, rfl, recordLegal_dataWrite_mvi8 hop himm hoob⟩

/-! ## The invariant -/

/-- An abort with a legal record keeps the invariant. -/
theorem inv_takeAbort {s : State} {e : Raise} {op : Option Byte} (hs : s.Inv)
    (hlegal : recordLegal s (recordOf s e op) = true) : (s.takeAbort e op).Inv where
  memWf := hs.memWf
  outBound := hs.outBound
  faultIff := ⟨fun _ => nofun, fun _ => rfl⟩
  recordOk := by
    rintro r hr
    obtain rfl := Option.some.inj ((fault_takeAbort s e op).symm.trans hr)
    exact (recordLegal_takeAbort s e op _).trans hlegal

theorem fault_eq_none_of_inv {s : State} (hs : s.Inv) (hrun : s.status = .running) : s.fault = none :=
  not_not.1 fun hne => by cases hrun.symm.trans (hs.faultIff.2 hne)

/-- A byte is put out only where there is room for it. -/
theorem length_out_le_of_ran {s t : State} {i : Instr} {cap : Nat} (h : Ran s i t) (hcap : s.outCapacity = some cap)
    (hle : s.out.length ≤ cap) : t.out.length ≤ cap := by
  obtain hout | ⟨-, room, hout⟩ := out_of_ran h
  · rwa [hout]
  · have hne : s.out.length ≠ cap := fun heq => by
      rw [outFull_iff.2 (heq ▸ hcap)] at room
      cases room
    rw [hout, List.length_append, List.length_singleton]
    omega

theorem memWf_of_ran {s t : State} {i : Instr} (h : Ran s i t) (hwf : s.mem.wf = true) : t.mem.wf = true := by
  obtain hmem | ⟨-, v, hmem⟩ := mem_of_ran h
  · rwa [hmem]
  · exact Memory.wf_write hwf hmem

/-- An instruction that does not abort keeps the invariant. -/
theorem inv_of_ran {s t : State} {i : Instr} (hs : s.Inv) (hrun : s.status = .running) (h : Ran s i t)
    (ht : t.status ≠ .aborted) : t.Inv := by
  have hfault : t.fault = none := (fault_of_ran h ht).trans (fault_eq_none_of_inv hs hrun)
  refine ⟨memWf_of_ran h hs.memWf, fun cap hcap => ?bound, ⟨fun h => absurd h ht, fun h => absurd hfault h⟩,
    fun r hr => by cases hfault.symm.trans hr⟩
  case bound =>
    rw [outCapacity_of_ran h] at hcap
    exact length_out_le_of_ran h hcap (hs.outBound cap hcap)

/-- Settles O50: a step is the abort of a fetch, the abort of an instruction, or an instruction that completes. -/
theorem everyStepKeepsTheInvariant : Obligations.EveryStepKeepsTheInvariant := by
  intro s t hs h
  obtain ⟨hrun, ⟨i, hfetch, hexec⟩ | ⟨e, op, hfetch, rfl⟩⟩ := step_next h
  · by_cases ht : t.status = .aborted
    · obtain ⟨e, op, rfl, hlegal⟩ := recordLegal_of_ran hfetch (exec_next hexec) hrun ht
      exact inv_takeAbort hs hlegal
    · exact inv_of_ran hs hrun (exec_next hexec) ht
  · exact inv_takeAbort hs (recordLegal_of_fetch_error hfetch)

end Sys2Proof.Proofs

/-! PROOFS. The eight units make the step (00_scope.md R7, D1): the fetch and decode unit shows what the fetch answers,
and the dispatcher's control, committed, is the next state that Ran gives. -/

namespace Sys2Proof.Proofs

open Sys2Proof.Machine Sys2Proof.Spec

/-! ## The composition, with the fetch unit's outputs as its argument -/

/-- The inputs of the dispatcher when the fetch and decode unit drives u. -/
def dispatchInWith (s : State) (u : FetchDecodeOut) : DispatchIn :=
  { fdu := u, pc := s.pc, a := s.a, f := s.f, ptr := s.ptr
    alu := aluUnit (aluRequest u) s.a s.b
    source8 := source8Mux s (rs8Request u)
    source32 := source32Port s (s.pcAdv u.size) (rs32Request u)
    dAddr := ptrCAddr s
    dOob := (memPort s (ptrCAddr s)).oob
    full := s.outFull, status := s.status, fault := s.fault }

/-- The commit of a control word with the next pc it selects. -/
def commitNext (s : State) (size : Nat) (k : Control) : State :=
  commitControl s (nextPcUnit (s.pcAdv size) k.jumpEn k.jumpTarget) k

/-- The next state the units make when the fetch and decode unit drives u. -/
def unitNext (s : State) (u : FetchDecodeOut) : State := commitNext s u.size (dispatcher (dispatchInWith s u))

theorem unitStep_of_running {s : State} (h : s.status = .running) :
    unitStep s = .next (unitNext s (fetchDecodeUnit s)) := by
  simp only [unitStep, h]
  rfl

/-- A raise: only status and fault record are written (R76). -/
theorem commitNext_controlAbort (s : State) (u : FetchDecodeOut) (size : Nat) (k : Control) (r : Raise)
    (op : Option Byte) : commitNext s size (controlAbort (dispatchInWith s u) k r op) = s.takeAbort r op := rfl

theorem unitNext_of_kindRaise {s : State} {u : FetchDecodeOut} {r : Raise} (hu : u.ifault = .none)
    (h : kindRaise (dispatchInWith s u) = some r) : unitNext s u = s.takeAbort r (some u.op) := by
  have hd : dispatcher (dispatchInWith s u) =
      controlAbort (dispatchInWith s u) (routeKind (dispatchInWith s u)) r (some u.op) := by
    simp only [dispatcher, dispatchInWith, hu] at h ⊢
    simp only [dispatchKind, h]
  rw [unitNext, hd, commitNext_controlAbort]

theorem unitNext_of_no_raise {s : State} {u : FetchDecodeOut} (hu : u.ifault = .none)
    (h : kindRaise (dispatchInWith s u) = none) :
    unitNext s u = commitNext s u.size (routeKind (dispatchInWith s u)) := by
  have hd : dispatcher (dispatchInWith s u) = routeKind (dispatchInWith s u) := by
    simp only [dispatcher, dispatchInWith, hu] at h ⊢
    simp only [dispatchKind, h]
  rw [unitNext, hd]

/-! ## The memory ports -/

theorem memPort_of_read {s : State} {addr : Word} {v : Byte} (h : s.mem.read addr.toNat = some v) :
    memPort s addr = { data := v, oob := false } := by
  have hlt := Memory.read_eq_some_lt h
  rw [Memory.read, if_pos hlt] at h
  simp only [memPort, Option.some.inj h, decide_eq_false (Nat.not_le.2 hlt)]

theorem memPort_oob {s : State} {addr : Word} (h : s.mem.size ≤ addr.toNat) : (memPort s addr).oob = true :=
  decide_eq_true h

/-- The ports find the missing byte that the fetch raises at. -/
theorem firstOob_of_fetchBytes_error {s : State} {addr : Word} {n : Nat} {e : Raise}
    (h : fetchBytes s addr n = .error e) :
    ∃ a, firstOob s addr n = some a ∧ e = Raise.outOfBounds .fetchImmediate a := by
  induction n generalizing addr with
  | zero => cases h
  | succ n ih =>
    rw [fetchBytes] at h
    cases hv : memRead .fetchImmediate s addr with
    | error e' =>
      rw [hv] at h
      obtain ⟨hoob, rfl⟩ := memRead_error.1 hv
      cases h
      exact ⟨addr, by rw [firstOob, if_pos (memPort_oob hoob)], rfl⟩
    | ok v =>
      rw [hv] at h
      have hin : ¬ (memPort s addr).oob = true := by simp [memPort_of_read (memRead_ok.1 hv)]
      cases hr : fetchBytes s (addr + 1#32) n with
      | ok ib => rw [hr] at h; cases h
      | error e' =>
        rw [hr] at h
        cases h
        rw [firstOob, if_neg hin]
        exact ih hr

theorem firstOob_of_fetchBytes_ok {s : State} {addr : Word} {n : Nat} {ib : List Byte}
    (h : fetchBytes s addr n = .ok ib) : firstOob s addr n = none := by
  induction n generalizing addr ib with
  | zero => rfl
  | succ n ih =>
    rw [fetchBytes] at h
    cases hv : memRead .fetchImmediate s addr with
    | error e => rw [hv] at h; cases h
    | ok v =>
      rw [hv] at h
      have hin : ¬ (memPort s addr).oob = true := by simp [memPort_of_read (memRead_ok.1 hv)]
      cases hr : fetchBytes s (addr + 1#32) n with
      | error e => rw [hr] at h; cases h
      | ok rest =>
        rw [firstOob, if_neg hin]
        exact ih hr

/-! ## The fetch and decode unit -/

/-- The unit's outputs for a fetched instruction (R60). -/
def fetchedUnit (s : State) (i : Instr) : FetchDecodeOut :=
  { op := opcodeOf i, kind := headKind (headOf i), size := (headOf i).size
    dst := fieldD (opcodeOf i), src := fieldS (opcodeOf i)
    imm8 := fetchPortByte s 1
    imm32 := le32 (fetchPortByte s 1) (fetchPortByte s 2) (fetchPortByte s 3) (fetchPortByte s 4)
    ifault := .none }

@[simp] theorem headOf_withImmediates (hd : Head) (ib : List Byte) : headOf (hd.withImmediates ib) = hd := by
  cases hd <;> rfl

theorem fetchDecodeUnit_of_fetch_ok {s : State} {i : Instr} (h : fetch s = .ok i) :
    fetchDecodeUnit s = fetchedUnit s i := by
  obtain ⟨op, hd, ib, hop, hdec, hib, rfl⟩ := fetch_ok h
  simp only [fetchDecodeUnit, memPort_of_read hop, hdec, firstOob_of_fetchBytes_ok hib, fetchedUnit,
    opcodeOf_of_decodeOpcode hdec, headOf_withImmediates, if_neg Bool.false_ne_true]

/-- The bytes after the opcode of a fetched instruction are its immediates. -/
theorem fetchPortByte_of_fetch_ok {s : State} {i : Instr} {k : Nat} {v : Byte} (h : fetch s = .ok i)
    (hv : (immediatesOf i)[k]? = some v) : fetchPortByte s (k + 1) = v := by
  obtain ⟨op, hd, ib, -, -, hib, rfl⟩ := fetch_ok h
  obtain ⟨hlen, hread⟩ := fetchBytes_ok hib
  rw [immediatesOf_withImmediates hlen] at hv
  have hk : k < hd.immBytes := hlen ▸ (List.getElem?_eq_some_iff.1 hv).1
  have hport := memPort_of_read ((hread k hk).trans hv)
  rw [← add_ofNat_succ] at hport
  rw [fetchPortByte, hport]

/-- imm8 of a fetched instruction that has one. -/
theorem imm8_fetchedUnit {s : State} {i : Instr} {v : Byte} (h : fetch s = .ok i) (hi : immediatesOf i = [v]) :
    (fetchedUnit s i).imm8 = v :=
  fetchPortByte_of_fetch_ok (k := 0) h (by rw [hi]; rfl)

/-- imm32 of a fetched instruction that has one. -/
theorem imm32_fetchedUnit {s : State} {i : Instr} {w : Word} (h : fetch s = .ok i)
    (hi : immediatesOf i = imm32Bytes w) : (fetchedUnit s i).imm32 = w := by
  have byte : ∀ k v, (imm32Bytes w)[k]? = some v → fetchPortByte s (k + 1) = v := fun k v hv =>
    fetchPortByte_of_fetch_ok h (hi ▸ hv)
  rw [fetchedUnit, byte 0 _ rfl, byte 1 _ rfl, byte 2 _ rfl, byte 3 _ rfl]
  exact imm32Of_imm32Bytes w

/-! ## A fetch that raises -/

/-- The dispatcher takes the very abort that the step takes. -/
theorem unitNext_of_fetch_error {s : State} {e : Raise} {op : Option Byte} (h : fetch s = .error (e, op)) :
    unitNext s (fetchDecodeUnit s) = s.takeAbort e op := by
  obtain ⟨hoob, rfl, rfl⟩ | ⟨v, hop, rfl, ⟨hdec, rfl⟩ | ⟨hd, hdec, herr⟩⟩ := fetch_error h
  · have hu : fetchDecodeUnit s = _ := if_pos (memPort_oob hoob)
    rw [hu]
    rfl
  · simp only [fetchDecodeUnit, memPort_of_read hop, hdec, if_neg Bool.false_ne_true]
    rfl
  · obtain ⟨a, hfirst, rfl⟩ := firstOob_of_fetchBytes_error herr
    simp only [fetchDecodeUnit, memPort_of_read hop, hdec, hfirst, if_neg Bool.false_ne_true]
    rfl

/-! ## The move family through the muxes -/

theorem fieldD_moveOpcode (tt : BitVec 2) (d s : BitVec 3) : fieldD (moveOpcode tt d s) = d := by
  revert tt d s; decide

theorem fieldS_moveOpcode (tt : BitVec 2) (d s : BitVec 3) : fieldS (moveOpcode tt d s) = s := by
  revert tt d s; decide

theorem source8Mux_of_read8_ok {s : State} {src : Reg8} {v : Byte} (h : read8 s src = .ok v) :
    source8Mux s (some (reg8Index src)) = { data := v, oob := false } := by
  cases src with
  | ptrC => exact memPort_of_read (memRead_ok.1 h)
  | _ => cases h; rfl

theorem source32Port_reg32Index (s : State) (size : Nat) (src : Reg32) :
    source32Port s (s.pcAdv size) (some (reg32Index src)) = read32 s size src := by
  cases src <;> rfl

theorem writeRaise_of_write8_ok {s t : State} {u : FetchDecodeOut} {dst : Reg8} {v : Byte}
    (hdst : u.dst = reg8Index dst) (h : write8 s dst v = .ok t) : writeRaise (dispatchInWith s u) = none := by
  cases dst with
  | ptrC =>
    obtain ⟨m, hm, -⟩ := memWrite_ok h
    obtain ⟨hlt, -⟩ := Memory.write_eq_some hm
    have hin : (memPort s (ptrCAddr s)).oob = false := decide_eq_false (Nat.not_le.2 hlt)
    simp [writeRaise, dispatchInWith, hin]
  | _ => simp [writeRaise, dispatchInWith, hdst, reg8Index]

theorem writeRaise_of_oob {s : State} {u : FetchDecodeOut} (hdst : u.dst = 7)
    (h : s.mem.size ≤ (ptrCAddr s).toNat) :
    writeRaise (dispatchInWith s u) = some (Raise.outOfBounds .dataWrite (ptrCAddr s)) := by
  simp [writeRaise, dispatchInWith, hdst, memPort_oob h]

/-- The 8-bit destination mux, committed, is Write8 with the pc advanced. -/
theorem commitNext_controlWrite8 {s t : State} {u : FetchDecodeOut} {dst : Reg8} {v : Byte} (size : Nat)
    (hdst : u.dst = reg8Index dst) (h : write8 s dst v = .ok t) :
    commitNext s size (controlWrite8 (dispatchInWith s u) v) = t.setPc (s.pcAdv size) := by
  have hd : (dispatchInWith s u).fdu.dst = reg8Index dst := hdst
  cases dst with
  | ptrC =>
    obtain ⟨m, hm, rfl⟩ := memWrite_ok h
    obtain ⟨hlt, -⟩ := Memory.write_eq_some hm
    rw [Memory.write, if_pos hlt] at hm
    rw [controlWrite8, hd, ← Option.some.inj hm]
    rfl
  | _ =>
    cases h
    rw [controlWrite8, hd]
    rfl

/-- The 32-bit destination, committed, is Write32. -/
theorem commitNext_controlWrite32 {s : State} {u : FetchDecodeOut} {dst : Reg32} (size : Nat) (v : Word)
    (hdst : u.dst = reg32Index dst) :
    commitNext s size (controlWrite32 (dispatchInWith s u) v) = write32 s size dst v := by
  have hd : (dispatchInWith s u).fdu.dst = reg32Index dst := hdst
  rw [controlWrite32, hd]
  cases dst <;> rfl

/-! ## A fetched instruction -/

/-- The jumps write pc alone: the target when their condition holds, else pc_adv (R75). -/
theorem unitNext_jez (s : State) (imm32 : Word) :
    unitNext s (fetchedUnit s (.jez imm32)) =
      s.setPc (if decide (s.f = 0) then (fetchedUnit s (.jez imm32)).imm32 else s.pcAdv 5) := rfl

theorem unitNext_jnz (s : State) (imm32 : Word) :
    unitNext s (fetchedUnit s (.jnz imm32)) =
      s.setPc (if decide (s.f ≠ 0) then (fetchedUnit s (.jnz imm32)).imm32 else s.pcAdv 5) := rfl

theorem routeKind_mv8 (s : State) (dst src : Reg8) :
    routeKind (dispatchInWith s (fetchedUnit s (.mv8 dst src))) =
      controlWrite8 (dispatchInWith s (fetchedUnit s (.mv8 dst src))) (source8Mux s (some (reg8Index src))).data := by
  rw [← fieldS_moveOpcode 0b01#2 (reg8Index dst) (reg8Index src)]
  rfl

theorem kindRaise_mv8 (s : State) (dst src : Reg8) :
    kindRaise (dispatchInWith s (fetchedUnit s (.mv8 dst src))) =
      if (source8Mux s (some (reg8Index src))).oob then some (Raise.outOfBounds .dataRead (ptrCAddr s))
      else writeRaise (dispatchInWith s (fetchedUnit s (.mv8 dst src))) := by
  rw [← fieldS_moveOpcode 0b01#2 (reg8Index dst) (reg8Index src)]
  rfl

theorem routeKind_mv32 (s : State) (dst src : Reg32) :
    routeKind (dispatchInWith s (fetchedUnit s (.mv32 dst src))) =
      controlWrite32 (dispatchInWith s (fetchedUnit s (.mv32 dst src))) (read32 s 1 src) := by
  rw [← source32Port_reg32Index, ← fieldS_moveOpcode 0b10#2 (reg32Index dst) (reg32Index src)]
  rfl

/-- The units' next state is the one exec answers, for each way an instruction can run. -/
theorem unitNext_of_ran {s t : State} {i : Instr} (hfetch : fetch s = .ok i) (h : Ran s i t) :
    unitNext s (fetchedUnit s i) = t := by
  cases h with
  | halt | cmp | add | sub | xor => rfl
  | out room =>
    have hnone : kindRaise (dispatchInWith s (fetchedUnit s .out)) = none := if_neg (by simp [dispatchInWith, room])
    rw [unitNext_of_no_raise rfl hnone]
    rfl
  | outFull full => exact unitNext_of_kindRaise rfl (if_pos full)
  | aptr imm8 =>
    rw [← imm8_fetchedUnit hfetch rfl]
    rfl
  | jez imm32 =>
    rw [unitNext_jez, imm32_fetchedUnit hfetch rfl]
    simp only [decide_eq_true_eq]
  | jnz imm32 =>
    rw [unitNext_jnz, imm32_fetchedUnit hfetch rfl]
    simp only [decide_eq_true_eq, ite_not]
  | mv8 dst src v u hr hw =>
    have hdst : (fetchedUnit s (.mv8 dst src)).dst = reg8Index dst := fieldD_moveOpcode _ _ _
    have hnone : kindRaise (dispatchInWith s (fetchedUnit s (.mv8 dst src))) = none := by
      rw [kindRaise_mv8, source8Mux_of_read8_ok hr, if_neg Bool.false_ne_true, writeRaise_of_write8_ok hdst hw]
    rw [unitNext_of_no_raise rfl hnone, routeKind_mv8, source8Mux_of_read8_ok hr]
    exact commitNext_controlWrite8 1 hdst hw
  | mv8Read dst oob =>
    apply unitNext_of_kindRaise rfl
    rw [kindRaise_mv8]
    exact if_pos (memPort_oob oob)
  | mv8Write src hs oob =>
    have hin : (source8Mux s (some (reg8Index src))).oob = false := by
      cases src with
      | ptrC => exact absurd rfl hs
      | _ => rfl
    apply unitNext_of_kindRaise rfl
    rw [kindRaise_mv8, hin, if_neg Bool.false_ne_true, writeRaise_of_oob (fieldD_moveOpcode _ _ _) oob]
  | mvi8 dst imm8 u hw =>
    have hdst : (fetchedUnit s (.mvi8 dst imm8)).dst = reg8Index dst := fieldD_moveOpcode _ _ _
    have hnone : kindRaise (dispatchInWith s (fetchedUnit s (.mvi8 dst imm8))) = none :=
      writeRaise_of_write8_ok hdst hw
    rw [← imm8_fetchedUnit hfetch rfl] at hw
    rw [unitNext_of_no_raise rfl hnone]
    exact commitNext_controlWrite8 2 hdst hw
  | mvi8Write imm8 oob => exact unitNext_of_kindRaise rfl (writeRaise_of_oob (fieldD_moveOpcode _ _ _) oob)
  | mv32 dst src =>
    rw [unitNext_of_no_raise rfl rfl, routeKind_mv32]
    exact commitNext_controlWrite32 1 _ (fieldD_moveOpcode _ _ _)
  | mvi32 dst imm32 =>
    rw [unitNext_of_no_raise rfl rfl, ← imm32_fetchedUnit hfetch rfl]
    exact commitNext_controlWrite32 5 _ (fieldD_moveOpcode _ _ _)

/-- Settles O51: while RUNNING the fetch raises in both, or the fetched instruction runs in both. -/
theorem unitsComposeToTheStep : Obligations.UnitsComposeToTheStep := by
  intro s
  cases hrun : s.status with
  | halted | aborted => simp only [unitStep, step, hrun]
  | running =>
    rw [unitStep_of_running hrun]
    cases hf : fetch s with
    | error p => rw [step_of_fetch_error hrun hf, unitNext_of_fetch_error hf]
    | ok i =>
      obtain ⟨t, hexec⟩ := exec_total i s
      rw [step_of_fetch_ok hrun hf, hexec, fetchDecodeUnit_of_fetch_ok hf, unitNext_of_ran hf (exec_next hexec)]

end Sys2Proof.Proofs

/-! PROOFS. The assembler (30_encoding.md R63, log 15): the lines it accepts are the listings and their MV
and MVI forms, and it reads back the characters that a disassembler prints. -/

namespace Sys2Proof.Proofs

open Sys2Proof.Machine Sys2Proof.Spec

/-! ## Lines of tokens -/

/-- An immediate that is in its range is printed and read as the same number. -/
theorem toNat_ofNat_of_decide {w n : Nat} (h : decide (n < 2 ^ w) = true) : (BitVec.ofNat w n).toNat = n := by
  rw [BitVec.toNat_ofNat, Nat.mod_eq_of_lt (of_decide_eq_true h)]

/-- Settles O52: the listing of an instruction is well formed, its immediates being in range. -/
theorem assembleInvertsListing : Obligations.AssembleInvertsListing := by
  intro i
  cases i with
  | aptr v | jez v | jnz v | mvi8 _ v | mvi32 _ v =>
    have hv := v.isLt
    simp only [assemble, listing, wellFormed, hv, decide_true, if_true, BitVec.ofNat_toNat, BitVec.setWidth_eq]
  | _ => rfl

theorem assemble_of_aliasLine {i : Instr} {l : AsmLine} (h : aliasLine i = some l) : assemble l = some i := by
  cases i with
  | mv8 dst src => cases h; rfl
  | mvi8 dst v =>
    cases h
    have hv := v.isLt
    simp only [assemble, listing, wellFormed, hv, decide_true, if_true, BitVec.ofNat_toNat, BitVec.setWidth_eq]
  | _ => cases h

theorem wellFormed_of_assemble {l : AsmLine} {i : Instr} (h : assemble l = some i) : wellFormed l = true := by
  by_contra hno
  rw [assemble, if_neg hno] at h
  cases h

/-- Every well-formed line is a listing or its MV or MVI form, one case per row of the check. -/
theorem exists_listing_of_wellFormed {l : AsmLine} (h : wellFormed l = true) :
    ∃ i : Instr, l = listing i ∨ aliasLine i = some l := by
  obtain ⟨m, ops⟩ := l
  unfold wellFormed at h
  split at h
  case h_16 => cases h
  all_goals
    rename_i hm hops
    simp only at hm hops
    subst hm hops
  · exact ⟨.halt, .inl rfl⟩
  · exact ⟨.out, .inl rfl⟩
  · exact ⟨.cmp, .inl rfl⟩
  · exact ⟨.add, .inl rfl⟩
  · exact ⟨.sub, .inl rfl⟩
  · exact ⟨.xor, .inl rfl⟩
  · exact ⟨.aptr (BitVec.ofNat 8 _), .inl (by rw [listing, toNat_ofNat_of_decide h])⟩
  · exact ⟨.jez (BitVec.ofNat 32 _), .inl (by rw [listing, toNat_ofNat_of_decide h])⟩
  · exact ⟨.jnz (BitVec.ofNat 32 _), .inl (by rw [listing, toNat_ofNat_of_decide h])⟩
  · exact ⟨.mv8 _ _, .inl rfl⟩
  · exact ⟨.mv8 _ _, .inr rfl⟩
  · exact ⟨.mvi8 _ (BitVec.ofNat 8 _), .inl (by rw [listing, toNat_ofNat_of_decide h])⟩
  · exact ⟨.mvi8 _ (BitVec.ofNat 8 _), .inr (by rw [aliasLine, listing, toNat_ofNat_of_decide h])⟩
  · exact ⟨.mv32 _ _, .inl rfl⟩
  · exact ⟨.mvi32 _ (BitVec.ofNat 32 _), .inl (by rw [listing, toNat_ofNat_of_decide h])⟩

theorem assemble_of_listing_or_aliasLine {l : AsmLine} {i : Instr} (h : l = listing i ∨ aliasLine i = some l) :
    assemble l = some i := by
  obtain rfl | h := h
  · exact assembleInvertsListing i
  · exact assemble_of_aliasLine h

theorem listing_or_aliasLine_of_assemble {l : AsmLine} {i : Instr} (h : assemble l = some i) :
    l = listing i ∨ aliasLine i = some l := by
  obtain ⟨j, hj⟩ := exists_listing_of_wellFormed (wellFormed_of_assemble h)
  obtain rfl : i = j := Option.some.inj (h.symm.trans (assemble_of_listing_or_aliasLine hj))
  exact hj

/-- Settles O53: a well-formed line is a line of some instruction, and the assembler gives that one. -/
theorem assemblerAcceptsExactlyTheSyntax : Obligations.AssemblerAcceptsExactlyTheSyntax :=
  fun _ => ⟨fun _ => ⟨listing_or_aliasLine_of_assemble, assemble_of_listing_or_aliasLine⟩,
    ⟨exists_listing_of_wellFormed, fun ⟨_, h⟩ => wellFormed_of_assemble (assemble_of_listing_or_aliasLine h)⟩⟩

/-! ## The words of a line of characters -/

/-- Characters that stand together: none of them a space, and at least one. -/
def IsWord (w : List Char) : Prop := w ≠ [] ∧ ' ' ∉ w

theorem splitWords_append {w : List Char} (h : ' ' ∉ w) (rest : List Char) :
    splitWords (w ++ rest) = (w ++ (splitWords rest).1, (splitWords rest).2) := by
  induction w with
  | nil => rfl
  | cons ch w ih =>
    obtain ⟨hch, hw⟩ := not_or.1 (mt List.mem_cons.2 h)
    rw [List.cons_append, splitWords, ih hw]
    simp only [if_neg (Ne.symm hch), List.cons_append]

theorem lineWords_eq (text : List Char) :
    lineWords text =
      if (splitWords text).1 = [] then (splitWords text).2 else (splitWords text).1 :: (splitWords text).2 := by
  unfold lineWords
  split
  · next h => rw [h, if_pos rfl]
  · next word others hne h =>
    rw [h, if_neg hne]

theorem lineWords_word {w : List Char} (h : IsWord w) : lineWords w = [w] := by
  have hs := splitWords_append h.2 []
  rw [List.append_nil] at hs
  rw [lineWords_eq, hs, splitWords, List.append_nil, if_neg h.1]

theorem lineWords_word_space {w : List Char} (h : IsWord w) (rest : List Char) :
    lineWords (w ++ ' ' :: rest) = w :: lineWords rest := by
  have hspace : splitWords (' ' :: rest) = ([], lineWords rest) := by
    rw [lineWords_eq]
    rfl
  rw [lineWords_eq, splitWords_append h.2, hspace, List.append_nil, if_neg h.1]

/-! ## Reading a line -/

theorem isWord_of_readMnemonic {m : List Char} {mn : Mnemonic} (h : readMnemonic m = some mn) : IsWord m := by
  unfold readMnemonic at h
  split at h
  case h_16 => cases h
  all_goals exact ⟨nofun, by decide⟩

theorem readLine_one {m x : List Char} {mn : Mnemonic} {ox : AsmOperand} (hx : IsWord x)
    (hmn : readMnemonic m = some mn) (hox : readOperand x = some ox) :
    readLine (m ++ [' '] ++ x) = some { mnemonic := mn, operands := [ox] } := by
  rw [readLine, List.append_assoc, List.singleton_append, lineWords_word_space (isWord_of_readMnemonic hmn),
    lineWords_word hx]
  simp only [hmn, hox]
  rfl

theorem isWord_arrow : IsWord ['<', '-'] := ⟨nofun, by decide⟩

theorem readLine_two {m x y : List Char} {mn : Mnemonic} {ox oy : AsmOperand} (hx : IsWord x)
    (hy : IsWord y) (hmn : readMnemonic m = some mn) (hox : readOperand x = some ox)
    (hoy : readOperand y = some oy) :
    readLine (m ++ [' '] ++ x ++ arrow ++ y) = some { mnemonic := mn, operands := [ox, oy] } := by
  have hline : m ++ [' '] ++ x ++ arrow ++ y = m ++ ' ' :: (x ++ ' ' :: (['<', '-'] ++ ' ' :: y)) := by
    simp [arrow]
  rw [readLine, hline, lineWords_word_space (isWord_of_readMnemonic hmn), lineWords_word_space hx,
    lineWords_word_space isWord_arrow, lineWords_word hy]
  simp only [hmn, hox, hoy]
  rfl

/-! ## Registers and hexadecimal numbers -/

theorem isWord_reg8Name (r : Reg8) : IsWord (reg8Name r) := by
  cases r <;> exact ⟨nofun, by decide⟩

theorem isWord_reg32Name (r : Reg32) : IsWord (reg32Name r) := by
  cases r <;> exact ⟨nofun, by decide⟩

theorem readOperand_reg8Name (r : Reg8) : readOperand (reg8Name r) = some (.r8 r) := by
  cases r <;> rfl

theorem readOperand_reg32Name (r : Reg32) : readOperand (reg32Name r) = some (.r32 r) := by
  cases r <;> rfl

theorem hexDigitValue_hexDigit : ∀ d < 16, hexDigitValue (hexDigit d) = some d := by decide

theorem space_ne_hexDigit : ∀ d < 16, ' ' ≠ hexDigit d := by decide

theorem space_not_mem_hexDigits (k n : Nat) : ' ' ∉ hexDigits k n := by
  induction k generalizing n with
  | zero => nofun
  | succ k ih =>
    intro hmem
    obtain hmem | hmem := List.mem_append.1 hmem
    · exact ih _ hmem
    · exact space_ne_hexDigit (n % 16) (Nat.mod_lt n (by decide)) (List.mem_singleton.1 hmem)

theorem readDigits_append (base : Nat) (xs ys : List Char) (v : Nat) :
    readDigits base (xs ++ ys) v = (readDigits base xs v).bind (readDigits base ys) := by
  induction xs generalizing v with
  | nil => rfl
  | cons ch xs ih =>
    rw [List.cons_append, readDigits, readDigits]
    cases hexDigitValue ch with
    | none => rfl
    | some d =>
      by_cases hd : d < base
      · simp only [if_pos hd, ih]
      · simp only [if_neg hd, Option.bind_none]

/-- The k low digits of n, read after v. -/
theorem readDigits_hexDigits (k n v : Nat) :
    readDigits 16 (hexDigits k n) v = some (v * 16 ^ k + n % 16 ^ k) := by
  induction k generalizing n with
  | zero => simp [hexDigits, readDigits, Nat.mod_one]
  | succ k ih =>
    have hd : n % 16 < 16 := Nat.mod_lt n (by decide)
    have hlast : ∀ u, readDigits 16 [hexDigit (n % 16)] u = some (u * 16 + n % 16) := fun u => by
      simp only [readDigits, hexDigitValue_hexDigit _ hd, if_pos hd]
    have hvalue : (v * 16 ^ k + n / 16 % 16 ^ k) * 16 + n % 16 = v * 16 ^ (k + 1) + n % 16 ^ (k + 1) := by
      rw [Nat.pow_succ', Nat.mod_mul]
      ring
    rw [hexDigits, readDigits_append, ih, Option.bind_some, hlast, hvalue]

/-- A word that begins with 0x names no register and reads as its digits. -/
theorem readOperand_hex (k n : Nat) (h : n < 16 ^ (k + 1)) :
    readOperand ('0' :: 'x' :: hexDigits (k + 1) n) = some (.num n) := by
  have hnumber : readNumber ('0' :: 'x' :: hexDigits (k + 1) n) = some n := by
    have hread := readDigits_hexDigits (k + 1) n 0
    rw [Nat.zero_mul, Nat.zero_add, Nat.mod_eq_of_lt h] at hread
    cases hdigits : hexDigits (k + 1) n with
    | nil => simp [hexDigits] at hdigits
    | cons ch rest => rw [← hread, hdigits]; rfl
  have hregs : readOperand ('0' :: 'x' :: hexDigits (k + 1) n) =
      (readNumber ('0' :: 'x' :: hexDigits (k + 1) n)).map .num := rfl
  rw [hregs, hnumber, Option.map_some]

theorem readOperand_hexByte (v : Byte) : readOperand (hexByte v) = some (.num v.toNat) :=
  readOperand_hex 1 v.toNat v.isLt

theorem readOperand_hexWord (v : Word) : readOperand (hexWord v) = some (.num v.toNat) :=
  readOperand_hex 7 v.toNat v.isLt

theorem isWord_hex (k n : Nat) : IsWord ('0' :: 'x' :: hexDigits k n) := by
  have h0 : ' ' ≠ '0' := by decide
  have hx : ' ' ≠ 'x' := by decide
  exact ⟨nofun, List.not_mem_cons_of_ne_of_not_mem h0
    (List.not_mem_cons_of_ne_of_not_mem hx (space_not_mem_hexDigits k n))⟩

theorem isWord_hexByte (v : Byte) : IsWord (hexByte v) := isWord_hex 2 v.toNat

theorem isWord_hexWord (v : Word) : IsWord (hexWord v) := isWord_hex 8 v.toNat

/-! ## The text of an instruction -/

/-- The printed characters read as the tokens of the listing. -/
theorem readLine_instrText (i : Instr) : readLine (instrText i) = some (listing i) := by
  cases i with
  | halt | out | cmp | add | sub | xor => rfl
  | aptr v =>
    exact readLine_one (m := ['A', 'P', 'T', 'R']) (isWord_hexByte v) rfl (readOperand_hexByte v)
  | jez v =>
    exact readLine_one (m := ['J', 'E', 'Z']) (isWord_hexWord v) rfl (readOperand_hexWord v)
  | jnz v =>
    exact readLine_one (m := ['J', 'N', 'Z']) (isWord_hexWord v) rfl (readOperand_hexWord v)
  | mv8 dst src =>
    exact readLine_two (m := ['M', 'V', '8']) (isWord_reg8Name dst) (isWord_reg8Name src) rfl
      (readOperand_reg8Name dst) (readOperand_reg8Name src)
  | mvi8 dst v =>
    exact readLine_two (m := ['M', 'V', 'I', '8']) (isWord_reg8Name dst) (isWord_hexByte v) rfl
      (readOperand_reg8Name dst) (readOperand_hexByte v)
  | mv32 dst src =>
    exact readLine_two (m := ['M', 'V', '3', '2']) (isWord_reg32Name dst) (isWord_reg32Name src) rfl
      (readOperand_reg32Name dst) (readOperand_reg32Name src)
  | mvi32 dst v =>
    exact readLine_two (m := ['M', 'V', 'I', '3', '2']) (isWord_reg32Name dst) (isWord_hexWord v)
      rfl (readOperand_reg32Name dst) (readOperand_hexWord v)

/-- Settles O54: the text reads as the listing, which assembles to the instruction (O52). -/
theorem assemblerReadsTheListedText : Obligations.AssemblerReadsTheListedText := by
  intro i
  rw [assembleText, readLine_instrText, Option.bind_some, assembleInvertsListing]

end Sys2Proof.Proofs
